-- ==== Sys2Proof/Word.lean ====
section
/-!
DEFINITION. The words of the machine: the nibble and the 56-bit register value (rules R6, R20, R52), the 16-bit
command word and the command transaction (rules R70, R71).
-/

namespace Sys2Proof

/-- One nibble: a 4-bit unsigned number, 8-4-2-1 (rules R21, R53). -/
abbrev Nibble := BitVec 4

/-- One register value: 14 nibbles packed in 56 bits, nibble `i` in bits `[4i+3:4i]` (rules R20, R52). -/
abbrev Reg := BitVec 56

/-- A command word CW (rule R71). -/
abbrev CmdWord := BitVec 16

/-- The inputs of one command transaction: the command word and, beside it on its own input, the write data that
only WR reads (rules R70, R77, R78). -/
structure Transaction where
  cw    : CmdWord
  wdata : Reg
  deriving DecidableEq, Repr

end Sys2Proof
end

