-- ==== Sys2Proof/Syntax.lean ====
section
/-!
DEFINITION. The register identifiers (rule R73) and the seven commands (rules R74, R81), one constructor for each row of
spec/opcode_table.json.
-/

namespace Sys2Proof

/-- The closed enumeration of register identifiers (rules R20, R73). -/
inductive RegId where
  | a | b | c | d | e | f | m
  deriving DecidableEq, Repr

/-- The commands with their operands (rules R74, R77). WR's data is an operand: it travels in the same transaction. -/
inductive Instr where
  /-- CANON (rule R130). -/
  | canon
  /-- OVF (rule R171); `neg` is CW[0]: false for the positive sentinel (rule R72). -/
  | ovf (neg : Bool)
  /-- UNF (rule R172). -/
  | unf
  /-- RD (rule R106). -/
  | rd (r : RegId)
  /-- WR (rule R105). -/
  | wr (r : RegId) (wdata : Reg)
  /-- SETN (rule R110); index and value as encoded, 0 to 15. -/
  | setn (r : RegId) (idx val : Nibble)
  /-- RESET (rule R112). -/
  | reset
  deriving DecidableEq, Repr

end Sys2Proof
end

