-- ==== Sys2Proof/Config.lean ====
section
/-!
DEFINITION. What an implementation of the block fixes: the constants of rule R6, the open parameters of rule R7, and the
free power-on values of the registers the spec gives none (rule R211).
-/

namespace Sys2Proof

/-- EXP_MAG_POSITIONS: how many low nibbles of A are the entered exponent's magnitude (rules R7, R141). -/
inductive ExpMag where
  | two | three
  deriving DecidableEq, Repr

/-- The open parameters of rule R7 that a command consults. WRITABLE_REGS always contains A and B, so only the other five
registers have a bit of their own. -/
structure Config where
  expMag    : ExpMag
  writableC : Bool
  writableD : Bool
  writableE : Bool
  writableF : Bool
  writableM : Bool
  deriving DecidableEq, Repr

/-- The defaults of rule R7: two magnitude positions, all seven registers writable.
DESIGN CHOICE (log 1), unsafe: a claim about `State.reset` alone is a claim about these parameters. -/
def Config.default : Config :=
  { expMag := .two, writableC := true, writableD := true, writableE := true, writableF := true, writableM := true }

/-- The strictest WRITABLE_REGS, the set of A and B (decision D10). -/
def Config.strict : Config :=
  { expMag := .two, writableC := false, writableD := false, writableE := false, writableF := false, writableM := false }

/-- Whether a register is in WRITABLE_REGS (rule R7). -/
def Config.writable (cfg : Config) : RegId → Bool
  | .a => true
  | .b => true
  | .c => cfg.writableC
  | .d => cfg.writableD
  | .e => cfg.writableE
  | .f => cfg.writableF
  | .m => cfg.writableM

/-- POWER_ON_CDEFM: "unwritten", or a 56-bit value for each of C, D, E, F and M (rules R7, R29, R231). -/
inductive PowerOn where
  | unwritten
  | values (c d e f m : Reg)
  deriving DecidableEq, Repr

/-- The draw of rule R211(b): the value a register the spec gives no power-on value holds then. It is a free value: it has
no body, nibbles above 9 included. DESIGN CHOICE (log 2). -/
opaque Config.powerOnDraw : RegId → Reg

/-- SIGN_NEG (rule R6). -/
abbrev Config.signNeg : Nibble := 9

/-- MARKER (rule R6). -/
abbrev Config.marker : Nibble := 2

/-- EXP_LIMIT (rule R6). -/
abbrev Config.expLimit : Int := 99

/-- The power-on pattern of A (rule R29), which is also the underflow sentinel (rule R172). -/
abbrev Config.zeroA : Reg := 0x00000000000000#56

/-- The power-on pattern of B (rule R29), which is also the underflow sentinel (rule R172). -/
abbrev Config.zeroB : Reg := 0x02999999999999#56

end Sys2Proof
end

