-- ==== Sys2Proof/WellFormed.lean ====
section
/-!
DEFINITION. When a command is well formed for a block with given parameters: a write names a register of WRITABLE_REGS (the last
check of rule R82, and rule R76(e)). Every other check of decoding is on the command word and is made by the decoder; a
register identifier 7 cannot be written as an `Instr` at all.
-/

namespace Sys2Proof

/-- A command whose write target, if it has one, is in WRITABLE_REGS (rule R76(e)). -/
def Instr.wellFormed (cfg : Config) : Instr → Bool
  | .canon      => true
  | .ovf _      => true
  | .unf        => true
  | .rd _       => true
  | .wr r _     => cfg.writable r
  | .setn r _ _ => cfg.writable r
  | .reset      => true

end Sys2Proof
end

