-- ==== Sys2Proof/Decode.lean ====
section
/-!
DEFINITION. The command word's fields (rules R71, R72), the decoder, total on every transaction and rejecting by name
(rules R75, R76, R82), and the encoder (rules R73, R74, R79).
-/

namespace Sys2Proof

/-- CW[15:12] (rule R71). -/
def opField (cw : CmdWord) : BitVec 4 := cw.extractLsb' 12 4

/-- CW[11] (rule R71). -/
def rsvField (cw : CmdWord) : BitVec 1 := cw.extractLsb' 11 1

/-- CW[10:8] (rule R71). -/
def ridField (cw : CmdWord) : BitVec 3 := cw.extractLsb' 8 3

/-- CW[7:4] (rule R71). -/
def idxField (cw : CmdWord) : Nibble := cw.extractLsb' 4 4

/-- CW[3:0] (rule R71). -/
def valField (cw : CmdWord) : Nibble := cw.extractLsb' 0 4

/-- The register a rid field names; 7 is reserved (rule R73). -/
def regOfRid (rid : BitVec 3) : Option RegId :=
  match rid.toNat with
  | 0 => some .a
  | 1 => some .b
  | 2 => some .c
  | 3 => some .d
  | 4 => some .e
  | 5 => some .f
  | 6 => some .m
  | _ => none

/-- The rid of a register (rule R73). -/
def ridOf : RegId → BitVec 3
  | .a => 0
  | .b => 1
  | .c => 2
  | .d => 3
  | .e => 4
  | .f => 5
  | .m => 6

/-- Why a command word spells no command; each is IllegalCommand at the interface (rules R76, R203). -/
inductive DecodeError where
  /-- op is 0 or 8 to 15 (rule R76(a)). -/
  | reservedOpcode
  /-- CW[11] is 1 (rule R76(b)). -/
  | reservedBit
  /-- A field the command does not use is not zero (rules R75, R76(c)). -/
  | unusedField
  /-- rid is 7 in RD, WR or SETN (rule R76(d)). -/
  | reservedRid
  deriving DecidableEq, Repr

/-- A command on the register that a rid names. -/
def withReg (rid : BitVec 3) (k : RegId → Instr) : Except DecodeError Instr :=
  match regOfRid rid with
  | some r => .ok (k r)
  | none   => .error .reservedRid

/-- A command whose unused fields are the given bits: they must all be zero (rule R75). -/
def ifZero {n : Nat} (unused : BitVec n) (k : Except DecodeError Instr) : Except DecodeError Instr :=
  if unused = 0 then k else .error .unusedField

/-- The decode procedure of rule R82, its checks in its order, up to the one that depends on WRITABLE_REGS: that one
is `Instr.wellFormed`, which WR and SETN check first of all (log 6). WDATA is read only for WR (rule R78). -/
def decode (t : Transaction) : Except DecodeError Instr :=
  if opField t.cw = 0 ∨ 8 ≤ (opField t.cw).toNat then .error .reservedOpcode
  else if rsvField t.cw ≠ 0 then .error .reservedBit
  else
    match (opField t.cw).toNat with
    | 1 => ifZero (t.cw.extractLsb' 0 12) (.ok .canon)
    | 2 => ifZero (t.cw.extractLsb' 1 11) (.ok (.ovf (t.cw.getLsbD 0)))
    | 3 => ifZero (t.cw.extractLsb' 0 12) (.ok .unf)
    | 4 => ifZero (t.cw.extractLsb' 0 8) (withReg (ridField t.cw) fun r => .rd r)
    | 5 => ifZero (t.cw.extractLsb' 0 8) (withReg (ridField t.cw) fun r => .wr r t.wdata)
    | 6 => withReg (ridField t.cw) fun r => .setn r (idxField t.cw) (valField t.cw)
    | 7 => ifZero (t.cw.extractLsb' 0 12) (.ok .reset)
    | _ => .error .reservedOpcode

/-- `base | rid(r) << 8` (rule R79). -/
def withRid (base : CmdWord) (r : RegId) : CmdWord := base ||| ((ridOf r).setWidth 16 <<< 8)

/-- The command word of a command (the table of rule R79). -/
def encodeWord : Instr → CmdWord
  | .canon          => 0x1000
  | .ovf neg        => if neg then 0x2001 else 0x2000
  | .unf            => 0x3000
  | .rd r           => withRid 0x4000 r
  | .wr r _         => withRid 0x5000 r
  | .setn r idx val => withRid 0x6000 r ||| (idx.setWidth 16 <<< 4) ||| val.setWidth 16
  | .reset          => 0x7000

/-- The write data of a command: WR's operand; 0 for the others, which ignore it (rules R76, R78). -/
def encodeData : Instr → Reg
  | .wr _ wdata => wdata
  | _           => 0

/-- The transaction that carries a command (rules R70, R79). -/
def encode (i : Instr) : Transaction := { cw := encodeWord i, wdata := encodeData i }

/-- The transaction whose bits are `w`, numbered as spec/opcode_table.json numbers them: CW is bits 15..0, WDATA the 56 bits
above; bits from `nbits` up are zero (log 10). -/
def tableTransaction (nbits w : Nat) : Transaction :=
  let bits := w % 2 ^ nbits
  { cw := BitVec.ofNat 16 bits, wdata := BitVec.ofNat 56 (bits / 2 ^ 16) }

/-- The command the decoder reads from a word of the opcode table. -/
def decodeTableWord (nbits w : Nat) : Option Instr := (decode (tableTransaction nbits w)).toOption

end Sys2Proof
end

