-- ==== Sys2Proof/Machine/State.lean ====
section
/-!
DEFINITION. The state of the block and its power-on values (rules R20, R29, R31, R70, R200, R230, R231), and the reasons a step
can stop.
-/

namespace Sys2Proof.Machine

/-- One thing for each of the seven registers (rule R20). -/
structure PerReg (α : Type) where
  a : α
  b : α
  c : α
  d : α
  e : α
  f : α
  m : α
  deriving DecidableEq, Repr

/-- The STATUS codes that occur; codes 4 to 7 are never produced (rule R200). -/
inductive Status where
  | ok | formatError | indexRange | illegalCommand
  deriving DecidableEq, Repr

/-- The outputs of one command transaction (rule R70). -/
structure Response where
  status : Status
  rdata  : Reg
  deriving DecidableEq, Repr

/-- The block, its command stream and its last response. -/
structure State where
  /-- The open parameters, which no command writes (rule R7, log 1). -/
  cfg       : Config
  /-- The register file (rule R20). -/
  regs      : PerReg Reg
  /-- The registers marked "unwritten" (rule R31, log 3); none is at `State.reset`. -/
  unwritten : PerReg Bool
  /-- The commands the host has issued and the block has not yet taken, oldest first (rules R57, R70, log 4). -/
  pending   : List Transaction
  /-- STATUS and RDATA of the last command that ended; none before the first. No command reads it (rule R28, log 5). -/
  response  : Option Response
  deriving DecidableEq, Repr

/-- Why the machine stops with a fault. -/
inductive Fault where
  /-- RD of a register marked "unwritten": the model fault that rules R31 and R211(a) ask for. Raised by `execRd` alone, and in no
  run from `State.reset`. Safe: the model stops where the hardware would return some value. -/
  | unwrittenRead (r : RegId)
  deriving DecidableEq, Repr

/-- Why a command has no meaning. -/
inductive Refusal where
  /-- The command has no meaning yet. Raised by `exec` alone; no arm of it does. Safe: the model stops. -/
  | notModelled (mnemonic : String)
  deriving DecidableEq, Repr

/-- The register file after power-on reset (rules R29, R231). Where POWER_ON_CDEFM is "unwritten" the fields of C, D, E, F and M
hold the draws too, which no RD answers with while the mark stands (log 3). -/
def powerOnRegs : PowerOn → PerReg Reg
  | .unwritten =>
    { a := Config.zeroA, b := Config.zeroB, c := Config.powerOnDraw .c, d := Config.powerOnDraw .d,
      e := Config.powerOnDraw .e, f := Config.powerOnDraw .f, m := Config.powerOnDraw .m }
  | .values c d e f m => { a := Config.zeroA, b := Config.zeroB, c := c, d := d, e := e, f := f, m := m }

/-- The marks after power-on reset (rules R29, R31). -/
def powerOnMarks : PowerOn → PerReg Bool
  | .unwritten        => { a := false, b := false, c := true, d := true, e := true, f := true, m := true }
  | .values _ _ _ _ _ => { a := false, b := false, c := false, d := false, e := false, f := false, m := false }

/-- The machine right after power-on reset, for every setting of the parameters (rules R230, R231, R232). -/
def State.powerOn (cfg : Config) (p : PowerOn) : State :=
  { cfg := cfg, regs := powerOnRegs p, unwritten := powerOnMarks p, pending := [], response := none }

/-- The machine right after power-on reset with the default parameters, C, D, E, F and M drawn as rule R211(b) says.
DESIGN CHOICE (log 1, log 2), unsafe. -/
def State.reset : State :=
  State.powerOn Config.default
    (.values (Config.powerOnDraw .c) (Config.powerOnDraw .d) (Config.powerOnDraw .e) (Config.powerOnDraw .f)
      (Config.powerOnDraw .m))

end Sys2Proof.Machine
end

