-- ==== Sys2Proof/Machine/Operands.lean ====
section
/-!
DEFINITION. The operand forms: a nibble of a register value (rules R8, R9, R51, R52) and a register of the file (rule R9).
-/

namespace Sys2Proof.Machine

/-- `v.n[i]`: bits `[4i+3:4i]` (rules R8, R52). -/
def nib (v : Reg) (i : Nat) : Nibble := v.extractLsb' (4 * i) 4

/-- `v.n[i] <- d`: the other nibbles keep their values (rule R9). -/
def setNib (v : Reg) (i : Nat) (d : Nibble) : Reg :=
  (v &&& ~~~((15#4).setWidth 56 <<< (4 * i))) ||| (d.setWidth 56 <<< (4 * i))

/-- A decimal digit, 0 to 9 (rules R10, R21). -/
def isDigit (d : Nibble) : Bool := decide (d.toNat ≤ 9)

/-- The lowest nibble index whose value is no digit, if there is one (rules R105, R206). -/
def firstBadNibble (v : Reg) : Option Nat := (List.range 14).find? fun i => !isDigit (nib v i)

/-- `x[r]` in a record of seven. -/
def PerReg.get {α : Type} (p : PerReg α) : RegId → α
  | .a => p.a
  | .b => p.b
  | .c => p.c
  | .d => p.d
  | .e => p.e
  | .f => p.f
  | .m => p.m

/-- `x[r] <- v` in a record of seven; no register aliases another (rule R20). -/
def PerReg.set {α : Type} (p : PerReg α) (r : RegId) (v : α) : PerReg α :=
  match r with
  | .a => { p with a := v }
  | .b => { p with b := v }
  | .c => { p with c := v }
  | .d => { p with d := v }
  | .e => { p with e := v }
  | .f => { p with f := v }
  | .m => { p with m := v }

end Sys2Proof.Machine
end

