-- ==== Sys2Proof/Machine/Flags.lean ====
section
/-!
DEFINITION. The block has no flags (rule R27); its only flag-like values are nibbles that carry a second meaning in certain
positions (rules R21, R22, R24). This file says how they are read and written.
-/

namespace Sys2Proof.Machine

/-- The mantissa is negative exactly when n[13] is 9 (rule R132). -/
def mantissaNegative (v : Reg) : Bool := nib v 13 == Config.signNeg

/-- The sign nibble CANON writes: 9 or 0 (rule R132). -/
def signNibble (neg : Bool) : Nibble := if neg then Config.signNeg else 0

/-- The entered exponent is negative exactly when n[2] is 9 (rule R140). -/
def exponentNegative (v : Reg) : Bool := nib v 2 == Config.signNeg

/-- The decimal-point marker; every other value is filler (rule R134). -/
def isMarker (d : Nibble) : Bool := d == Config.marker

end Sys2Proof.Machine
end

