-- ==== Sys2Proof/Machine/Ops.lean ====
section
/-!
DEFINITION. The named operations on the state: reading and writing registers (rules R9, R31), ending a command with a response
(rules R78, R200, R205), and taking the next command of the stream (rules R57, R70).
-/

namespace Sys2Proof.Machine

/-- `x[r]` (rule R9). -/
def State.readReg (s : State) (r : RegId) : Reg := s.regs.get r

/-- Whether the register is marked "unwritten" (rule R31). -/
def State.isUnwritten (s : State) (r : RegId) : Bool := s.unwritten.get r

/-- `x[r] <- v`: a whole-register write also ends the mark "unwritten" (rules R9, R31). -/
def State.writeReg (s : State) (r : RegId) (v : Reg) : State :=
  { s with regs := s.regs.set r v, unwritten := s.unwritten.set r false }

/-- `x[r].n[i] <- d`: one nibble; the other 13, and the mark "unwritten", stay (rules R31, R59, R110). -/
def State.writeNibble (s : State) (r : RegId) (i : Nat) (d : Nibble) : State :=
  { s with regs := s.regs.set r (setNib (s.readReg r) i d) }

/-- The STATUS code on the wire (rule R200). -/
def Status.code : Status → BitVec 3
  | .ok             => 0
  | .formatError    => 1
  | .indexRange     => 2
  | .illegalCommand => 3

/-- The errors a command can raise, each with its info. The info is stored nowhere (rules R201, R202, R203). -/
inductive CmdError where
  /-- A value that is no decimal digit; the info is the nibble index for WR and the value for SETN (rule R201). -/
  | formatError (info : Nat)
  /-- A nibble index outside 0 to 13 (rule R202). -/
  | indexRange (idx : Nat)
  /-- A command word that spells no command (rule R203). -/
  | illegalCommand (cw : CmdWord)
  deriving DecidableEq, Repr

/-- The STATUS that reports an error (rule R200). -/
def CmdError.status : CmdError → Status
  | .formatError _    => .formatError
  | .indexRange _     => .indexRange
  | .illegalCommand _ => .illegalCommand

/-- `STATUS <- OK ; RDATA <- rdata` (rules R78, R200). -/
def State.succeed (s : State) (rdata : Reg) : State :=
  { s with response := some { status := .ok, rdata := rdata } }

/-- `raise e`: the one way a command ends with an error. No register changes and RDATA is 0 (rules R78, R205, R207). -/
def State.fail (s : State) (e : CmdError) : State :=
  { s with response := some { status := e.status, rdata := 0 } }

/-- The host issues a transaction: it takes its place after those already issued (rules R11, R57). -/
def State.issue (s : State) (t : Transaction) : State := { s with pending := s.pending ++ [t] }

/-- The next command in issue order, and the state without it; none when the host has issued no more (rules R57, R70). -/
def State.fetch (s : State) : Option (Transaction × State) :=
  match s.pending with
  | []        => none
  | t :: rest => some (t, { s with pending := rest })

end Sys2Proof.Machine
end

