-- ==== Sys2Proof/Machine/RegisterAccess.lean ====
section
/-!
DEFINITION. The register access commands RD, WR, SETN and RESET (spec/40_register_access.md).
-/

namespace Sys2Proof.Machine

/-- The last check of decoding: WR and SETN name a register of WRITABLE_REGS, or the command is IllegalCommand, before any
other error (rules R76(e), R82, R206). -/
def ifWellFormed (i : Instr) (s : State) (k : State) : Host.Outcome State Fault Refusal :=
  .next (if i.wellFormed s.cfg then k else s.fail (.illegalCommand (encodeWord i)))

/-- RD (rule R106). A register marked "unwritten" has no value to answer with: the model fault of rule R211(a). -/
def execRd (r : RegId) (s : State) : Host.Outcome State Fault Refusal :=
  if s.isUnwritten r then .fault (.unwrittenRead r) else .next (s.succeed (s.readReg r))

/-- WR (rule R105): all fourteen nibbles are checked, the lowest bad index first, before anything is written. -/
def execWr (r : RegId) (wdata : Reg) (s : State) : Host.Outcome State Fault Refusal :=
  ifWellFormed (.wr r wdata) s <|
    match firstBadNibble wdata with
    | some i => s.fail (.formatError i)
    | none   => (s.writeReg r wdata).succeed 0

/-- SETN (rule R110): the index is checked before the value (rule R206). -/
def execSetn (r : RegId) (idx val : Nibble) (s : State) : Host.Outcome State Fault Refusal :=
  ifWellFormed (.setn r idx val) s <|
    if 13 < idx.toNat then s.fail (.indexRange idx.toNat)
    else if !isDigit val then s.fail (.formatError val.toNat)
    else (s.writeNibble r idx.toNat val).succeed 0

/-- A and B to the power-on pattern, which is also the underflow sentinel (rules R112, R172). -/
def State.loadZero (s : State) : State := (s.writeReg .a Config.zeroA).writeReg .b Config.zeroB

/-- RESET (rule R112): it does not canonicalize. -/
def execReset (s : State) : Host.Outcome State Fault Refusal := .next (s.loadZero.succeed 0)

end Sys2Proof.Machine
end

