-- ==== Sys2Proof/Machine/Canonicalize.lean ====
section
/-!
DEFINITION. CANON (spec/41_canonicalize.md), written as the pseudocode of rule R130, with the bodies of OVERFLOW and UNDERFLOW
(rules R171, R172) that its range check runs.
-/

namespace Sys2Proof.Machine

/-- The variables of the significant-digit scan: the working register, C's write cursor, the two one-way flags and
`digitsBeforeDecimal` (rule R32). -/
structure Scan where
  c            : Reg
  ci           : Nat
  foundDigit   : Bool
  foundDecimal : Bool
  dbd          : Int
  deriving DecidableEq, Repr

/-- The scan before its first step, with the working register as step 1 left it (rules R134, R135, R136). -/
def Scan.start (c : Reg) : Scan := { c := c, ci := 12, foundDigit := false, foundDecimal := false, dbd := 0 }

/-- The count of one step, taken after both flags are updated (rules R136, R137). -/
def countStep (digit point : Bool) (dbd : Int) : Int :=
  if digit && !point then dbd + 1 else if point && !digit then dbd - 1 else dbd

/-- Scan step `k`: A's cursor is at `12 - k` and B's at `13 - k` (rule R133). First both flags, then the copy, then the
count (rules R134, R135, R136, R137). -/
def scanStep (a b : Reg) (st : Scan) (k : Nat) : Scan :=
  let digit := st.foundDigit || nib a (12 - k) != 0
  let point := st.foundDecimal || isMarker (nib b (13 - k))
  { c            := if digit then setNib st.c st.ci (nib a (12 - k)) else st.c
    ci           := if digit then st.ci - 1 else st.ci
    foundDigit   := digit
    foundDecimal := point
    dbd          := countStep digit point st.dbd }

/-- The working register after step 1: all zero but the sign nibble (rules R132, R148). -/
def signedZero (a : Reg) : Reg := setNib 0 13 (signNibble (mantissaNegative a))

/-- Step 2, the ten steps of the scan (rule R133). -/
def scan (a b : Reg) : Scan := (List.range 10).foldl (scanStep a b) (Scan.start (signedZero a))

/-- Step 4 before the sign, the entered exponent's magnitude (rule R141). -/
def exponentMagnitude (m : ExpMag) (a : Reg) : Nat :=
  match m with
  | .two   => 10 * (nib a 1).toNat + (nib a 0).toNat
  | .three => 100 * (nib a 2).toNat + 10 * (nib a 1).toNat + (nib a 0).toNat

/-- Steps 3 and 4, the entered exponent (rules R140, R141). -/
def enteredExponent (m : ExpMag) (a : Reg) : Int :=
  if exponentNegative a then -(exponentMagnitude m a : Int) else (exponentMagnitude m a : Int)

/-- Step 5, the adjusted exponent (rule R142). -/
def adjustedExponent (m : ExpMag) (a b : Reg) : Int := enteredExponent m a + (scan a b).dbd - 1

/-- Step 7's loop: one exponent digit into position `p`, then the quotient (rule R145). -/
def exponentStep (eneg : Bool) (st : Reg × Nat) (p : Nat) : Reg × Nat :=
  let d := st.2 % 10
  (setNib st.1 p (BitVec.ofNat 4 (if eneg then 9 - d else d)), st.2 / 10)

/-- Step 7, the exponent in tens-complement form (rules R144, R145). -/
def encodeExponent (c : Reg) (adj : Int) : Reg :=
  let eneg := decide (adj < 0)
  let mag := (if eneg then -(adj + 1) else adj).toNat
  ([0, 1, 2].foldl (exponentStep eneg) (c, mag)).1

/-- What the range check of step 6 decides (rule R143). -/
inductive Verdict where
  /-- In range: the completed working register. -/
  | inRange (c : Reg)
  /-- Above 99: OVERFLOW with the mantissa's sign (rule R170). -/
  | overflow (neg : Bool)
  /-- Below -99: UNDERFLOW (rule R173). -/
  | underflow
  deriving DecidableEq, Repr

/-- Steps 1 to 7: overflow is tested first (rules R131, R143). -/
def canonVerdict (m : ExpMag) (a b : Reg) : Verdict :=
  let adj := adjustedExponent m a b
  if Config.expLimit < adj then .overflow (mantissaNegative a)
  else if adj < -Config.expLimit then .underflow
  else .inRange (encodeExponent (scan a b).c adj)

/-- The overflow sentinel's A (rule R171), which is also the C its CANON leaves (rule R174). -/
def overflowA (neg : Bool) : Reg := if neg then 0x99999999999099#56 else 0x09999999999099#56

/-- The overflow sentinel's B (rules R171, R174). -/
def overflowB : Reg := 0x02000000000000#56

/-- The writes of OVERFLOW before its CANON (rules R171, R179). -/
def State.loadOverflow (s : State) (neg : Bool) : State :=
  (s.writeReg .a (overflowA neg)).writeReg .b overflowB

/-- The body of CANON with at most `n` passes: a range error loads a sentinel and runs CANON again (rules R147, R170, R173). The pass
on the sentinel leaves A, B and C as rule R174 lists them. -/
def canonPasses : Nat → State → State
  | 0,     s => s
  | n + 1, s =>
    match canonVerdict s.cfg.expMag (s.readReg .a) (s.readReg .b) with
    | .inRange c    => s.writeReg .c c
    | .overflow neg => canonPasses n (s.loadOverflow neg)
    | .underflow    => canonPasses n s.loadZero

/-- CANON's whole effect on the registers. Two passes are enough, since a sentinel is in range (rule R175); that more
would change nothing is a statement of this row (log 7). -/
def State.canonicalize (s : State) : State := canonPasses 2 s

/-- CANON (rules R130, R156). -/
def execCanon (s : State) : Host.Outcome State Fault Refusal := .next (s.canonicalize.succeed 0)

end Sys2Proof.Machine
end

