-- ==== Sys2Proof/Machine/RangeSentinels.lean ====
section
/-!
DEFINITION. The commands OVF and UNF (spec/42_range_sentinels.md): each loads a sentinel and runs CANON in full, as one command.
-/

namespace Sys2Proof.Machine

/-- OVF (rule R171), with the results of rule R174. -/
def execOvf (neg : Bool) (s : State) : Host.Outcome State Fault Refusal :=
  .next ((s.loadOverflow neg).canonicalize.succeed 0)

/-- UNF (rule R172), with the results of rule R174. -/
def execUnf (s : State) : Host.Outcome State Fault Refusal := .next (s.loadZero.canonicalize.succeed 0)

end Sys2Proof.Machine
end

