-- ==== Sys2Proof/Machine/Dispatch.lean ====
section
/-!
DEFINITION. One arm for each command, each a direct call of its meaning.
-/

namespace Sys2Proof.Machine

def exec (i : Instr) (s : State) : Host.Outcome State Fault Refusal :=
  match i with
  | .canon => Sys2Proof.Machine.execCanon s
  | .ovf neg => Sys2Proof.Machine.execOvf neg s
  | .unf => Sys2Proof.Machine.execUnf s
  | .rd r => Sys2Proof.Machine.execRd r s
  | .wr r wdata => Sys2Proof.Machine.execWr r wdata s
  | .setn r idx val => Sys2Proof.Machine.execSetn r idx val s
  | .reset => Sys2Proof.Machine.execReset s

end Sys2Proof.Machine
end

