-- ==== Sys2Proof/Machine/Step.lean ====
section
/-!
DEFINITION. One step: the oldest command the host has issued, taken, decoded and run as one atomic transaction (rules R56, R57, R70).
-/

namespace Sys2Proof.Machine

/-- One command transaction. A word that spells no command ends with IllegalCommand (rule R203). With no command issued
the block idles: nothing reaches it but commands (rule R208, log 4). -/
def step (s : State) : Host.Outcome State Fault Refusal :=
  match s.fetch with
  | none => .next s
  | some (t, s') =>
    match decode t with
    | .error _ => .next (s'.fail (.illegalCommand t.cw))
    | .ok i    => exec i s'

/-- `s` with the transaction of a table word as the very next command; what was issued before follows it (log 4, log 10). -/
def State.withFetchWord (s : State) (nbits w : Nat) : State :=
  { s with pending := tableTransaction nbits w :: s.pending }

end Sys2Proof.Machine
end

