-- ==== Sys2Proof/Machine/Codec.lean ====
section
/-!
DEFINITION. The text form of a register: the NibbleCodec of the host's side of the interface (rules R2, R54, R100 to R103).
-/

namespace Sys2Proof.Machine

/-- A text, leftmost character first. -/
abbrev Text := List Char

/-- FormatError at text construction, with its info (rules R102, R212). -/
inductive FormatFailure where
  /-- The text does not have 14 characters. -/
  | length (n : Nat)
  /-- The character at this 0-based position is no decimal digit; the first such position. -/
  | character (k : Nat)
  deriving DecidableEq, Repr

/-- The nibble of a decimal digit; only the ASCII characters 0x30 to 0x39 are digits (rule R100). -/
def digitOf (ch : Char) : Option Nibble :=
  if 48 ≤ ch.toNat ∧ ch.toNat ≤ 57 then some (BitVec.ofNat 4 (ch.toNat - 48)) else none

/-- The hexadecimal character of a nibble, upper case (rule R101). -/
def hexChar (d : Nibble) : Char :=
  if d.toNat ≤ 9 then Char.ofNat (48 + d.toNat) else Char.ofNat (55 + d.toNat)

/-- The characters from text position `k` on, into the nibbles from `13 - k` down (rule R102). -/
def constructFrom (k : Nat) (v : Reg) : Text → Except FormatFailure Reg
  | []         => .ok v
  | ch :: rest =>
    match digitOf ch with
    | none   => .error (.character k)
    | some d => constructFrom (k + 1) (setNib v (13 - k) d) rest

/-- A register value from its text; never padded or truncated (rule R102). -/
def construct (t : Text) : Except FormatFailure Reg :=
  if t.length ≠ 14 then .error (.length t.length) else constructFrom 0 0 t

/-- The text of a register value, most significant nibble first (rule R103). -/
def render (v : Reg) : Text := (List.range 14).map fun k => hexChar (nib v (13 - k))

end Sys2Proof.Machine
end

