-- ==== Sys2Proof/Machine/Assembler.lean ====
section
/-!
DEFINITION. The assembler syntax on the host's side (rule R79), the pseudo-instruction ENTER (rule R80), and issuing what a line
assembles to (rules R11, R212).
-/

namespace Sys2Proof.Machine

/-- One line of assembler (rules R79, R80). -/
inductive AsmLine where
  | canon
  | ovf (neg : Bool)
  | unf
  | rd (r : RegId)
  | wr (r : RegId) (text : Text)
  | setn (r : RegId) (idx val : Nibble)
  | reset
  | enter (a b : Text)
  deriving DecidableEq, Repr

/-- WR's transaction, or the assembly-time FormatError of a malformed text (rules R79, R102). -/
def assembleWr (r : RegId) (text : Text) : Except FormatFailure Transaction :=
  (construct text).map fun v => encode (.wr r v)

/-- The transactions of a line, each with its own verdict; ENTER has three (rules R79, R80). -/
def assemble : AsmLine → List (Except FormatFailure Transaction)
  | .canon          => [.ok (encode .canon)]
  | .ovf neg        => [.ok (encode (.ovf neg))]
  | .unf            => [.ok (encode .unf)]
  | .rd r           => [.ok (encode (.rd r))]
  | .wr r text      => [assembleWr r text]
  | .setn r idx val => [.ok (encode (.setn r idx val))]
  | .reset          => [.ok (encode .reset)]
  | .enter a b      => [assembleWr .a a, assembleWr .b b, .ok (encode .canon)]

/-- The host issues the transactions of a line in order. Where a text is malformed no command is issued for it, and the rest of
an expansion still runs (rules R80, R212, log 12). -/
def State.issueLine (s : State) (l : AsmLine) : State :=
  ((assemble l).filterMap Except.toOption).foldl State.issue s

/-- A register's letter (rule R79). -/
def letterOf : RegId → Char
  | .a => 'A'
  | .b => 'B'
  | .c => 'C'
  | .d => 'D'
  | .e => 'E'
  | .f => 'F'
  | .m => 'M'

/-- The register a letter names (rule R79). -/
def regOfLetter : Char → Option RegId
  | 'A' => some .a
  | 'B' => some .b
  | 'C' => some .c
  | 'D' => some .d
  | 'E' => some .e
  | 'F' => some .f
  | 'M' => some .m
  | _   => none

/-- The quotation mark around a text operand (rule R79). -/
def quoteMark : Char := Char.ofNat 34

/-- A number 0 to 15 in decimal (rule R79). -/
def spellNumber (d : Nibble) : Text :=
  if d.toNat ≤ 9 then [hexChar d] else ['1', Char.ofNat (38 + d.toNat)]

/-- The number a decimal spelling names, 0 to 15, without leading zeros (rule R79, log 11). -/
def parseNumber : Text → Option Nibble
  | [x]      => digitOf x
  | ['1', y] => if 48 ≤ y.toNat ∧ y.toNat ≤ 53 then some (BitVec.ofNat 4 (y.toNat - 38)) else none
  | _        => none

/-- A text in quotation marks. -/
def spellQuoted (t : Text) : Text := quoteMark :: (t ++ [quoteMark])

/-- The comma and space between two operands (rule R79). -/
def separator : Text := [',', ' ']

/-- A line as the table of rule R79 spells it, one space after the mnemonic and after each comma (log 11). -/
def AsmLine.spell : AsmLine → Text
  | .canon          => "CANON".toList
  | .ovf neg        => if neg then "OVF neg".toList else "OVF pos".toList
  | .unf            => "UNF".toList
  | .rd r           => "RD ".toList ++ [letterOf r]
  | .wr r text      => "WR ".toList ++ (letterOf r :: separator ++ spellQuoted text)
  | .setn r idx val => "SETN ".toList ++ (letterOf r :: separator ++ spellNumber idx ++ separator ++ spellNumber val)
  | .reset          => "RESET".toList
  | .enter a b      => "ENTER ".toList ++ (spellQuoted a ++ separator ++ spellQuoted b)

/-- What follows an expected opening of a text, if the text opens so. -/
def after : Text → Text → Option Text
  | [],      t       => some t
  | _ :: _,  []      => none
  | p :: ps, x :: xs => if p = x then after ps xs else none

/-- A quoted text at the front, and what follows it. -/
def takeQuoted (t : Text) : Option (Text × Text) :=
  match after [quoteMark] t with
  | none      => none
  | some rest =>
    match rest.dropWhile (· ≠ quoteMark) with
    | []        => none
    | _ :: tail => some (rest.takeWhile (· ≠ quoteMark), tail)

/-- A register letter at the front followed by a comma, and what follows that. -/
def takeRegister : Text → Option (RegId × Text)
  | x :: rest => do
    let r ← regOfLetter x
    let tail ← after separator rest
    return (r, tail)
  | [] => none

/-- The operand of RD (rule R79). -/
def parseRd : Text → Option AsmLine
  | [x] => (regOfLetter x).map AsmLine.rd
  | _   => none

/-- The operands of WR (rule R79). -/
def parseWr (t : Text) : Option AsmLine :=
  match takeRegister t with
  | none => none
  | some (r, rest) =>
    match takeQuoted rest with
    | some (text, []) => some (.wr r text)
    | _               => none

/-- The operands of SETN (rule R79). -/
def parseSetn (t : Text) : Option AsmLine :=
  match takeRegister t with
  | none => none
  | some (r, rest) => do
    let idx ← parseNumber (rest.takeWhile (· ≠ ','))
    let tail ← after separator (rest.dropWhile (· ≠ ','))
    let val ← parseNumber tail
    return .setn r idx val

/-- The operands of ENTER (rule R80). -/
def parseEnter (t : Text) : Option AsmLine :=
  match takeQuoted t with
  | none => none
  | some (a, rest) => do
    let tail ← after separator rest
    match takeQuoted tail with
    | some (b, []) => some (.enter a b)
    | _            => none

/-- The line a text spells, if it spells one as the table of rule R79 does (log 11). -/
def parseLine (t : Text) : Option AsmLine :=
  if t = "CANON".toList then some .canon
  else if t = "OVF pos".toList then some (.ovf false)
  else if t = "OVF neg".toList then some (.ovf true)
  else if t = "UNF".toList then some .unf
  else if t = "RESET".toList then some .reset
  else
    ((after "RD ".toList t).bind parseRd) <|> ((after "WR ".toList t).bind parseWr)
      <|> ((after "SETN ".toList t).bind parseSetn) <|> ((after "ENTER ".toList t).bind parseEnter)

end Sys2Proof.Machine
end

