-- ==== Sys2Proof/Safety.lean ====
section
/-!
DEFINITION. What a safe run keeps (the register invariant of rule R10), and the words statements are made in: how a command
ended and what it left alone, the closed forms of rule R138, and the numeric value of rule R150.
-/

namespace Sys2Proof.Machine

/-- "A register holds a valid value": all fourteen nibbles are 0 to 9 (rule R10). -/
abbrev ValidReg (v : Reg) : Prop := ∀ i < 14, (nib v i).toNat ≤ 9

/-- The invariant of the block: A and B, the registers CANON reads, hold valid values (rules R10, R156). -/
abbrev State.Inv (s : State) : Prop := ValidReg (s.readReg .a) ∧ ValidReg (s.readReg .b)

/-- No register is marked "unwritten" (rule R31): the states in which nothing can fault. -/
abbrev State.AllWritten (s : State) : Prop := ∀ r : RegId, s.isUnwritten r = false

/-- A command of `s` ended in `t` with this STATUS and RDATA, and outside the listed registers it left every register and its mark
as they were, and the parameters and the command stream too. -/
def EndsWith (s t : State) (status : Status) (rdata : Reg) (written : List RegId) : Prop :=
  t.response = some { status := status, rdata := rdata } ∧
  t.cfg = s.cfg ∧
  t.pending = s.pending ∧
  ∀ r : RegId, r ∉ written → t.readReg r = s.readReg r ∧ t.isUnwritten r = s.isUnwritten r

/-- The registers `rs` were written whole: none of them is marked "unwritten" (rule R31). -/
def Written (t : State) (rs : List RegId) : Prop := ∀ r ∈ rs, t.isUnwritten r = false

/-- `f` of rule R138: the highest index in 12..3 with a non-zero digit. -/
def firstDigit (a : Reg) : Option Nat := [12, 11, 10, 9, 8, 7, 6, 5, 4, 3].find? fun i => nib a i != 0

/-- `p` of rule R138: the highest index in 13..4 with the marker, or 3. -/
def pointIndex (b : Reg) : Nat := ([13, 12, 11, 10, 9, 8, 7, 6, 5, 4].find? fun i => nib b i == 2).getD 3

/-- `dbd` in the closed form of rule R138. -/
def closedDbd (a b : Reg) : Int :=
  match firstDigit a with
  | some f => (f : Int) - pointIndex b + 1
  | none   => 3 - (pointIndex b : Int)

/-- `e` of rules R140 and R141, for either setting of EXP_MAG_POSITIONS. -/
def closedExponent (m : ExpMag) (a : Reg) : Int :=
  let low : Int := 10 * (nib a 1).toNat + (nib a 0).toNat
  let mag : Int := if m = .two then low else 100 * (nib a 2).toNat + low
  if nib a 2 = 9 then -mag else mag

/-- `adj` of rule R142, from the closed forms. -/
def closedAdj (m : ExpMag) (a b : Reg) : Int := closedExponent m a + closedDbd a b - 1

/-- Mantissa nibble `12 - j` of the result in the closed form of rule R138: the digits from the first non-zero one on, then zeros. -/
def closedDigit (a : Reg) (j : Nat) : Nibble :=
  match firstDigit a with
  | some f => if j + 3 ≤ f then nib a (f - j) else 0
  | none   => 0

/-- The three exponent nibbles as one decimal number, `E3` of rule R146. -/
def exponentField (c : Reg) : Nat := 100 * (nib c 2).toNat + 10 * (nib c 1).toNat + (nib c 0).toNat

/-- The exponent an exponent field stands for (rule R146). -/
def decodedExponent (c : Reg) : Int := if nib c 2 = 9 then (exponentField c : Int) - 1000 else exponentField c

/-- The ten mantissa digits with the decimal point after position `point` (rules R138, R150). -/
def digitsValue (v : Reg) (point : Nat) : ℚ :=
  ∑ j ∈ Finset.range 10, ((nib v (3 + j)).toNat : ℚ) * (10 : ℚ) ^ ((3 + j : Int) - point)

/-- The sign of a mantissa, as a factor (rule R150). -/
def signFactor (v : Reg) : ℚ := if nib v 13 = 9 then -1 else 1

/-- The numeric value of a canonical register (rule R150). -/
def canonicalValue (c : Reg) : ℚ := signFactor c * digitsValue c 12 * (10 : ℚ) ^ decodedExponent c

/-- The numeric value of a raw entry (rules R138, R150). -/
def entryValue (m : ExpMag) (a b : Reg) : ℚ :=
  signFactor a * digitsValue a (pointIndex b) * (10 : ℚ) ^ closedExponent m a

/-- The state with other contents of the scratch registers (rule R26). -/
def State.withScratch (s : State) (d e f m : Reg) : State :=
  { s with regs := { s.regs with d := d, e := e, f := f, m := m } }

/-- The state under another setting of EXP_MAG_POSITIONS (rule R7). -/
def State.withExpMag (s : State) (m : ExpMag) : State := { s with cfg := { s.cfg with expMag := m } }

/-- The command words that rule R76 lists as illegal, in the numbers of rule R71's layout. -/
def IllegalWord (cfg : Config) (cw : CmdWord) : Prop :=
  let n := cw.toNat
  let op := n / 4096
  let rid := n / 256 % 8
  op = 0 ∨ 8 ≤ op ∨
  n / 2048 % 2 = 1 ∨
  ((op = 1 ∨ op = 3 ∨ op = 7) ∧ n % 4096 ≠ 0) ∨
  (op = 2 ∧ n % 4096 / 2 ≠ 0) ∨
  ((op = 4 ∨ op = 5) ∧ n % 256 ≠ 0) ∨
  ((op = 4 ∨ op = 5 ∨ op = 6) ∧ rid = 7) ∨
  ((op = 5 ∨ op = 6) ∧ ∃ r : RegId, (ridOf r).toNat = rid ∧ cfg.writable r = false)

end Sys2Proof.Machine
end

