-- ==== Sys2Proof/Certificates/Slice0/Obligations.lean ====
section
/-!
DEFINITION. The statements about the block, from the numbered rules of spec/. Each docstring names the rules it rests on; where
a rule is marked as a decision or a derivation of the spec's own, the docstring says so.
-/

open Sys2Proof Sys2Proof.Machine

/-! ### Power-on -/

/-- Rule R230: power-on reset sets A and B, whatever the parameters; both are written and no command is in progress. -/
def Obligations.PowerOnSetsAAndB : Prop :=
  ∀ (cfg : Config) (p : PowerOn),
    (State.powerOn cfg p).readReg .a = 0x00000000000000#56 ∧
    (State.powerOn cfg p).readReg .b = 0x02999999999999#56 ∧
    (State.powerOn cfg p).isUnwritten .a = false ∧
    (State.powerOn cfg p).isUnwritten .b = false ∧
    (State.powerOn cfg p).pending = []

/-- Rules R29, R31 and R231 (decision D11): C, D, E, F and M get the values of POWER_ON_CDEFM, or the mark "unwritten". That
`State.reset` takes the draw of rule R211(b) is the model's choice (log 2). -/
def Obligations.PowerOnTakesTheOpenParameter : Prop :=
  (∀ (cfg : Config) (c d e f m : Reg),
    (State.powerOn cfg (.values c d e f m)).AllWritten ∧
    (State.powerOn cfg (.values c d e f m)).readReg .c = c ∧
    (State.powerOn cfg (.values c d e f m)).readReg .d = d ∧
    (State.powerOn cfg (.values c d e f m)).readReg .e = e ∧
    (State.powerOn cfg (.values c d e f m)).readReg .f = f ∧
    (State.powerOn cfg (.values c d e f m)).readReg .m = m) ∧
  (∀ (cfg : Config) (r : RegId),
    (State.powerOn cfg .unwritten).isUnwritten r = decide (r ≠ .a ∧ r ≠ .b)) ∧
  State.reset.AllWritten ∧
  ∀ r : RegId, r ≠ .a → r ≠ .b → State.reset.readReg r = Config.powerOnDraw r

/-- Rule R234: A and B, the registers CANON reads, hold only digits after power-on, at `State.reset` and under every setting of the
parameters. C, D, E, F and M are not part of `State.Inv`: a draw of rule R211(b) may leave nibbles above 9 in them (log 2). -/
def Obligations.PowerOnMeetsTheInvariant : Prop :=
  State.reset.Inv ∧ ∀ (cfg : Config) (p : PowerOn), (State.powerOn cfg p).Inv

/-! ### RD -/

/-- Rule R106: RD of a register that is not marked "unwritten" answers its value with STATUS OK and changes nothing else. -/
def Obligations.RdAnswersTheRegister : Prop :=
  ∀ (r : RegId) (s : State), s.isUnwritten r = false →
    exec (.rd r) s = .next { s with response := some { status := .ok, rdata := s.readReg r } }

/-- Rules R31 and R211(a) (decision D11): RD of a register marked "unwritten" is a model fault. No such state is reached from
`State.reset` (log 3). -/
def Obligations.RdOfUnwrittenFaults : Prop :=
  ∀ (r : RegId) (s : State), s.isUnwritten r = true → exec (.rd r) s = .fault (.unwrittenRead r)

/-! ### WR -/

/-- Rules R31 and R105: WR of a valid value to a writable register writes it whole, ends its mark, and changes nothing else. -/
def Obligations.WrWritesTheRegister : Prop :=
  ∀ (r : RegId) (v : Reg) (s : State), s.cfg.writable r = true → ValidReg v →
    ∃ t, exec (.wr r v) s = .next t ∧ t.readReg r = v ∧ Written t [r] ∧ EndsWith s t .ok 0 [r]

/-- Rules R105 and R201 (decision D8): WR of a value with a nibble above 9 is FormatError and changes no register. -/
def Obligations.WrRefusesNonDigits : Prop :=
  ∀ (r : RegId) (v : Reg) (s : State), s.cfg.writable r = true → ¬ ValidReg v →
    ∃ t, exec (.wr r v) s = .next t ∧ EndsWith s t .formatError 0 []

/-- Rules R105 and R206 (decision D22): the digit check finds the lowest index whose nibble is above 9, and none where every nibble is a
digit. That the model then drops the index is its own choice (log 16): nothing is said here of an answer that carries it. -/
def Obligations.DigitCheckFindsTheLowestBadNibble : Prop :=
  ∀ (v : Reg) (i : Nat), firstBadNibble v = some i ↔
    i < 14 ∧ 9 < (nib v i).toNat ∧ ∀ j < i, (nib v j).toNat ≤ 9

/-! ### SETN -/

/-- Rules R31 and R110: SETN of an index 0 to 13 and a digit sets that nibble and no other, and leaves the mark. -/
def Obligations.SetnSetsOneNibble : Prop :=
  ∀ (r : RegId) (idx val : Nibble) (s : State),
    s.cfg.writable r = true → idx.toNat ≤ 13 → val.toNat ≤ 9 →
    ∃ t, exec (.setn r idx val) s = .next t ∧
      nib (t.readReg r) idx.toNat = val ∧
      (∀ j < 14, j ≠ idx.toNat → nib (t.readReg r) j = nib (s.readReg r) j) ∧
      t.isUnwritten r = s.isUnwritten r ∧
      EndsWith s t .ok 0 [r]

/-- Rules R110, R202 and R206 (decisions D9, D22): SETN with index 14 or 15 is IndexRange, whatever the value. -/
def Obligations.SetnIndexRangeComesFirst : Prop :=
  ∀ (r : RegId) (idx val : Nibble) (s : State), s.cfg.writable r = true → 14 ≤ idx.toNat →
    ∃ t, exec (.setn r idx val) s = .next t ∧ EndsWith s t .indexRange 0 []

/-- Rules R110 and R201 (decision D9): SETN with an index in range and a value above 9 is FormatError. -/
def Obligations.SetnRefusesNonDigits : Prop :=
  ∀ (r : RegId) (idx val : Nibble) (s : State),
    s.cfg.writable r = true → idx.toNat ≤ 13 → 10 ≤ val.toNat →
    ∃ t, exec (.setn r idx val) s = .next t ∧ EndsWith s t .formatError 0 []

/-- Rules R76(e), R203 and R206 (decisions D6, D10): WR and SETN to a register outside WRITABLE_REGS are IllegalCommand, before any
other error, and change no register. -/
def Obligations.UnwritableTargetIsIllegal : Prop :=
  ∀ (i : Instr) (s : State), i.wellFormed s.cfg = false →
    ∃ t, exec i s = .next t ∧ EndsWith s t .illegalCommand 0 []

/-! ### RESET -/

/-- Rule R112 (decision D23): RESET returns A and B to the power-on pattern and does not canonicalize: C, D, E, F and M stay. -/
def Obligations.ResetRestoresThePattern : Prop :=
  ∀ s : State, ∃ t, exec .reset s = .next t ∧
    t.readReg .a = 0x00000000000000#56 ∧ t.readReg .b = 0x02999999999999#56 ∧
    Written t [.a, .b] ∧ EndsWith s t .ok 0 [.a, .b]

/-! ### CANON -/

/-- The closed form of the scan (rule R138, which the spec derives from rules R133 to R137): the count, and every mantissa nibble
of the working register. -/
def Obligations.ScanHasItsClosedForm : Prop :=
  ∀ a b : Reg,
    (scan a b).dbd = closedDbd a b ∧
    ∀ j < 10, nib (scan a b).c (12 - j) = closedDigit a j

/-- The closed form of the exponent field (rule R146, which the spec derives): three decimal nibbles that are the tens-complement of
the exponent, from which it can be decoded; the other nibbles stay. -/
def Obligations.ExponentFieldIsTensComplement : Prop :=
  ∀ (c : Reg) (adj : Int), -99 ≤ adj → adj ≤ 99 →
    (exponentField (encodeExponent c adj) : Int) = adj % 1000 ∧
    (∀ p < 3, (nib (encodeExponent c adj) p).toNat ≤ 9) ∧
    decodedExponent (encodeExponent c adj) = adj ∧
    ∀ j, 3 ≤ j → j < 14 → nib (encodeExponent c adj) j = nib c j

/-- CANON on an entry in range, whole (rules R130, R132, R147 and the derived closed forms of rules R138, R142, R146): the sign, the
mantissa from its first significant digit on, the exponent of that digit, and nothing but C written. -/
def Obligations.CanonDerivesTheCanonicalForm : Prop :=
  ∀ s : State,
    -99 ≤ closedAdj s.cfg.expMag (s.readReg .a) (s.readReg .b) →
    closedAdj s.cfg.expMag (s.readReg .a) (s.readReg .b) ≤ 99 →
    ∃ t, exec .canon s = .next t ∧
      nib (t.readReg .c) 13 = (if nib (s.readReg .a) 13 = 9 then 9 else 0) ∧
      (∀ j < 10, nib (t.readReg .c) (12 - j) = closedDigit (s.readReg .a) j) ∧
      (exponentField (t.readReg .c) : Int) = closedAdj s.cfg.expMag (s.readReg .a) (s.readReg .b) % 1000 ∧
      (∀ p < 3, (nib (t.readReg .c) p).toNat ≤ 9) ∧
      Written t [.c] ∧ EndsWith s t .ok 0 [.c]

/-- CANON on an entry above the range (rules R143, R170 and the derived rule R174): the overflow sentinel of the entry's sign. -/
def Obligations.CanonOverflowLeavesTheSentinel : Prop :=
  ∀ s : State, 99 < closedAdj s.cfg.expMag (s.readReg .a) (s.readReg .b) →
    ∃ t, exec .canon s = .next t ∧
      t.readReg .a = (if nib (s.readReg .a) 13 = 9 then 0x99999999999099#56 else 0x09999999999099#56) ∧
      t.readReg .b = 0x02000000000000#56 ∧
      t.readReg .c = t.readReg .a ∧
      Written t [.a, .b, .c] ∧ EndsWith s t .ok 0 [.a, .b, .c]

/-- CANON on an entry below the range (rules R143, R173 and the derived rules R174, R178): the power-on zero, the sign lost. -/
def Obligations.CanonUnderflowLeavesZero : Prop :=
  ∀ s : State, closedAdj s.cfg.expMag (s.readReg .a) (s.readReg .b) < -99 →
    ∃ t, exec .canon s = .next t ∧
      t.readReg .a = 0x00000000000000#56 ∧ t.readReg .b = 0x02999999999999#56 ∧
      t.readReg .c = 0x00000000000990#56 ∧
      Written t [.a, .b, .c] ∧ EndsWith s t .ok 0 [.a, .b, .c]

/-- Rules R170 and R173: on a range error CANON does what OVF with the mantissa's sign, or UNF, does. -/
def Obligations.RangeErrorsRunTheSentinelCommands : Prop :=
  ∀ s : State,
    (99 < adjustedExponent s.cfg.expMag (s.readReg .a) (s.readReg .b) →
      exec .canon s = exec (.ovf (decide (nib (s.readReg .a) 13 = 9))) s) ∧
    (adjustedExponent s.cfg.expMag (s.readReg .a) (s.readReg .b) < -99 →
      exec .canon s = exec .unf s)

/-- Where A's sign goes in a CANON (rules R132 and R171 and the derived rules R174, R178). Not on underflow: C's sign nibble is 9 where A's
is 9 and 0 otherwise. On overflow the sentinel in A carries that sign too. On underflow the sign is lost: the sign nibbles of A and C are 0. -/
def Obligations.MantissaSignIsCarried : Prop :=
  ∀ s : State, ∃ t, exec .canon s = .next t ∧
    (-99 ≤ adjustedExponent s.cfg.expMag (s.readReg .a) (s.readReg .b) →
      nib (t.readReg .c) 13 = (if nib (s.readReg .a) 13 = 9 then 9 else 0)) ∧
    (99 < adjustedExponent s.cfg.expMag (s.readReg .a) (s.readReg .b) →
      nib (t.readReg .a) 13 = (if nib (s.readReg .a) 13 = 9 then 9 else 0)) ∧
    (adjustedExponent s.cfg.expMag (s.readReg .a) (s.readReg .b) < -99 →
      nib (t.readReg .a) 13 = 0 ∧ nib (t.readReg .c) 13 = 0)

/-- Rules R144 and R145: the three exponent nibbles of C, digit by digit, and what the hundreds nibble can be. -/
def Obligations.ExponentDigitsAreReencoded : Prop :=
  ∀ (s : State) (adj mag : Int),
    adj = adjustedExponent s.cfg.expMag (s.readReg .a) (s.readReg .b) →
    -99 ≤ adj → adj ≤ 99 →
    mag = (if adj < 0 then -(adj + 1) else adj) →
    ∃ t, exec .canon s = .next t ∧
      (∀ p < 3, ((nib (t.readReg .c) p).toNat : Int) =
        if adj < 0 then 9 - mag / 10 ^ p % 10 else mag / 10 ^ p % 10) ∧
      nib (t.readReg .c) 2 = (if adj < 0 then 9 else 0)

/-- The ranges of the intermediate integers (rule R149, which the spec derives), for valid A. -/
def Obligations.IntermediateIntegersAreBounded : Prop :=
  ∀ a b : Reg, ValidReg a →
    -10 ≤ (scan a b).dbd ∧ (scan a b).dbd ≤ 10 ∧
    ((scan a b).dbd = 10 ↔ nib a 12 ≠ 0 ∧ ∀ i, 4 ≤ i → i ≤ 13 → nib b i ≠ 2) ∧
    -99 ≤ enteredExponent .two a ∧ enteredExponent .two a ≤ 99 ∧
    -110 ≤ adjustedExponent .two a b ∧ adjustedExponent .two a b ≤ 108 ∧
    ((-999 ≤ enteredExponent .three a ∧ enteredExponent .three a ≤ -900) ∨
      (0 ≤ enteredExponent .three a ∧ enteredExponent .three a ≤ 899)) ∧
    -1010 ≤ adjustedExponent .three a b ∧ adjustedExponent .three a b ≤ 908

/-- After any CANON on valid A and B, C is in canonical form (rule R151, which the spec derives). -/
def Obligations.CanonLeavesCanonicalForm : Prop :=
  ∀ s : State, s.Inv →
    ∃ t, exec .canon s = .next t ∧
      (nib (t.readReg .c) 13 = 0 ∨ nib (t.readReg .c) 13 = 9) ∧
      (nib (t.readReg .c) 2 = 0 ∨ nib (t.readReg .c) 2 = 9) ∧
      (nib (t.readReg .c) 12 ≠ 0 ∨ ∀ j, 3 ≤ j → j ≤ 12 → nib (t.readReg .c) j = 0) ∧
      ValidReg (t.readReg .c)

/-- Sign isolation (rule R153, derived from the source's property 6): two entries that differ only in A's sign nibble, 0 and 9, give
C values that differ at most in the sign nibble: 0 and 9, but 0 and 0 on underflow. -/
def Obligations.SignIsIsolated : Prop :=
  ∀ s u : State,
    u.cfg.expMag = s.cfg.expMag → u.readReg .b = s.readReg .b →
    nib (s.readReg .a) 13 = 0 → nib (u.readReg .a) 13 = 9 →
    (∀ j < 13, nib (u.readReg .a) j = nib (s.readReg .a) j) →
    ∃ t v, exec .canon s = .next t ∧ exec .canon u = .next v ∧
      (∀ j < 13, nib (v.readReg .c) j = nib (t.readReg .c) j) ∧
      nib (t.readReg .c) 13 = 0 ∧
      nib (v.readReg .c) 13 =
        (if closedAdj s.cfg.expMag (s.readReg .a) (s.readReg .b) < -99 then 0 else 9)

/-- The value of an in-range result is the value of the entry (rule R150, which the spec derives): nothing is rounded (rule R155). It holds
for a zero mantissa too, where both are zero. -/
def Obligations.CanonPreservesTheValue : Prop :=
  ∀ s : State,
    -99 ≤ closedAdj s.cfg.expMag (s.readReg .a) (s.readReg .b) →
    closedAdj s.cfg.expMag (s.readReg .a) (s.readReg .b) ≤ 99 →
    ∃ t, exec .canon s = .next t ∧
      canonicalValue (t.readReg .c) = entryValue s.cfg.expMag (s.readReg .a) (s.readReg .b)

/-- Rules R131 and R148 (decision D12): what CANON leaves in A, B and C depends on A, B and EXP_MAG_POSITIONS alone; the old C is lost. -/
def Obligations.CanonReadsOnlyAAndB : Prop :=
  ∀ s u : State,
    u.cfg.expMag = s.cfg.expMag → u.readReg .a = s.readReg .a → u.readReg .b = s.readReg .b →
    ∃ t v, exec .canon s = .next t ∧ exec .canon u = .next v ∧
      v.readReg .a = t.readReg .a ∧ v.readReg .b = t.readReg .b ∧ v.readReg .c = t.readReg .c

/-- CANON is idempotent (rules R62 and R154, which the spec derives): a second CANON leaves the whole state as the first did. -/
def Obligations.CanonIsIdempotent : Prop :=
  ∀ s : State, ∃ t, exec .canon s = .next t ∧ exec .canon t = .next t

/-- Termination (rule R175, which the spec derives). Under both settings the adjusted exponent is 99 on either overflow sentinel and -10 on
the underflow sentinel, so the nested CANON is in range: it completes a value for C and loads no sentinel again. Hence two passes are as
many as CANON ever makes: the cut after two (log 7, DEDUCED from R175) drops nothing. -/
def Obligations.AtMostOneNestedCanon : Prop :=
  (∀ (m : ExpMag) (neg : Bool),
    adjustedExponent m (overflowA neg) overflowB = 99 ∧
    ∃ c, canonVerdict m (overflowA neg) overflowB = .inRange c) ∧
  (∀ m : ExpMag,
    adjustedExponent m Config.zeroA Config.zeroB = -10 ∧
    ∃ c, canonVerdict m Config.zeroA Config.zeroB = .inRange c) ∧
  ∀ (n : Nat) (s : State), canonPasses (n + 2) s = canonPasses 2 s

/-- What the scan ignores (rule R139, which the spec derives): of B, only the position of the first marker matters. -/
def Obligations.OnlyTheFirstMarkerMatters : Prop :=
  ∀ a b b' : Reg, pointIndex b = pointIndex b' → scan a b = scan a b'

/-- Rule R141 (decision D15, conflict C1): the two settings of EXP_MAG_POSITIONS agree on every entry whose A.n[2] is 0. -/
def Obligations.MagnitudeSettingsAgreeOnZeroHundreds : Prop :=
  ∀ s : State, nib (s.readReg .a) 2 = 0 →
    ∃ t : State, exec .canon (s.withExpMag .two) = .next (t.withExpMag .two) ∧
      exec .canon (s.withExpMag .three) = .next (t.withExpMag .three)

/-- Rule R141 (decision D15, conflict C1): with three magnitude positions every entry whose A.n[2] is 9 underflows. -/
def Obligations.LiteralReadingUnderflowsNegativeExponents : Prop :=
  ∀ s : State, s.cfg.expMag = .three → nib (s.readReg .a) 2 = 9 → exec .canon s = exec .unf s

/-! ### OVF and UNF -/

/-- Rule R171 and the derived rule R174: OVF leaves the sentinel of the asked sign in A, B and C, whatever they held. -/
def Obligations.OvfLoadsTheSentinel : Prop :=
  ∀ (neg : Bool) (s : State), ∃ t, exec (.ovf neg) s = .next t ∧
    t.readReg .a = (if neg then 0x99999999999099#56 else 0x09999999999099#56) ∧
    t.readReg .b = 0x02000000000000#56 ∧
    t.readReg .c = t.readReg .a ∧
    Written t [.a, .b, .c] ∧ EndsWith s t .ok 0 [.a, .b, .c]

/-- Rule R172 and the derived rule R174: UNF leaves the power-on zero in A and B and its canonical form in C. -/
def Obligations.UnfLoadsZero : Prop :=
  ∀ s : State, ∃ t, exec .unf s = .next t ∧
    t.readReg .a = 0x00000000000000#56 ∧ t.readReg .b = 0x02999999999999#56 ∧
    t.readReg .c = 0x00000000000990#56 ∧
    Written t [.a, .b, .c] ∧ EndsWith s t .ok 0 [.a, .b, .c]

/-- What the nested CANON computes on each sentinel, under both settings (rule R174, which the spec derives). Overflow: f and p are 12, dbd is
1, e and adj are 99, and C is A, of value 9.999999999 times ten to the 99 with its sign. Underflow: no significant digit, p is 12, dbd is -9, adj is
-10, and C is zero with exponent -10. That CANON, OVF and UNF leave these A, B and C is said by CanonOverflowLeavesTheSentinel,
CanonUnderflowLeavesZero, OvfLoadsTheSentinel and UnfLoadsZero. -/
def Obligations.NestedCanonComputesTheSentinelResults : Prop :=
  (∀ (m : ExpMag) (neg : Bool),
    overflowA neg = (if neg then 0x99999999999099#56 else 0x09999999999099#56) ∧
    overflowB = 0x02000000000000#56 ∧
    firstDigit (overflowA neg) = some 12 ∧ pointIndex overflowB = 12 ∧
    (scan (overflowA neg) overflowB).dbd = 1 ∧
    enteredExponent m (overflowA neg) = 99 ∧
    adjustedExponent m (overflowA neg) overflowB = 99 ∧
    canonVerdict m (overflowA neg) overflowB = .inRange (overflowA neg) ∧
    canonicalValue (overflowA neg) = (if neg then -1 else 1) * 9.999999999 * 10 ^ 99) ∧
  ∀ m : ExpMag,
    Config.zeroA = 0x00000000000000#56 ∧ Config.zeroB = 0x02999999999999#56 ∧
    firstDigit Config.zeroA = none ∧ pointIndex Config.zeroB = 12 ∧
    (scan Config.zeroA Config.zeroB).dbd = -9 ∧
    adjustedExponent m Config.zeroA Config.zeroB = -10 ∧
    canonVerdict m Config.zeroA Config.zeroB = .inRange 0x00000000000990#56 ∧
    canonicalValue 0x00000000000990#56 = 0

/-- Rule R179: OVF and UNF are overwrites: from any two states they leave the same A, B and C, and D, E, F and M of each stay. -/
def Obligations.SentinelsAreOverwrites : Prop :=
  ∀ (i : Instr) (s u : State), ((∃ neg, i = .ovf neg) ∨ i = .unf) →
    ∃ t v, exec i s = .next t ∧ exec i u = .next v ∧
      v.readReg .a = t.readReg .a ∧ v.readReg .b = t.readReg .b ∧ v.readReg .c = t.readReg .c ∧
      ∀ r : RegId, r ≠ .a → r ≠ .b → r ≠ .c → t.readReg r = s.readReg r ∧ v.readReg r = u.readReg r

/-- Fixed points (rule R176, the source's properties 2 to 4, which the spec derives): a CANON that goes out of range leaves A and B at
values a second CANON leaves unchanged. -/
def Obligations.SentinelsAreFixedPoints : Prop :=
  ∀ s : State,
    (closedAdj s.cfg.expMag (s.readReg .a) (s.readReg .b) < -99 ∨
      99 < closedAdj s.cfg.expMag (s.readReg .a) (s.readReg .b)) →
    ∃ t u, exec .canon s = .next t ∧ exec .canon t = .next u ∧
      u.readReg .a = t.readReg .a ∧ u.readReg .b = t.readReg .b ∧ u.readReg .c = t.readReg .c ∧
      -99 ≤ closedAdj t.cfg.expMag (t.readReg .a) (t.readReg .b) ∧
      closedAdj t.cfg.expMag (t.readReg .a) (t.readReg .b) ≤ 99

/-! ### Rules over all commands -/

/-- Rule R26: no command but RD, WR and SETN reads or writes D, E, F or M. -/
def Obligations.ScratchRegistersAreUntouched : Prop :=
  ∀ (i : Instr) (s : State) (d e f m : Reg),
    (i = .canon ∨ (∃ neg, i = .ovf neg) ∨ i = .unf ∨ i = .reset) →
    ∃ t, exec i s = .next t ∧
      t.readReg .d = s.readReg .d ∧ t.readReg .e = s.readReg .e ∧
      t.readReg .f = s.readReg .f ∧ t.readReg .m = s.readReg .m ∧
      exec i (s.withScratch d e f m) = .next (t.withScratch d e f m)

/-- Who writes which register (rules R20, R25, R105, R110, R112, R147, R171, R172): a register that a command changed is named by a WR or a
SETN that may write it, or is C of CANON, OVF or UNF, or is A or B of those or of RESET. -/
def Obligations.OnlyItsWritersChangeARegister : Prop :=
  ∀ (i : Instr) (s t : State) (r : RegId), exec i s = .next t → t.readReg r ≠ s.readReg r →
    (s.cfg.writable r = true ∧ ((∃ v, i = .wr r v) ∨ ∃ idx val, i = .setn r idx val)) ∨
    (r = .c ∧ (i = .canon ∨ (∃ neg, i = .ovf neg) ∨ i = .unf)) ∨
    ((r = .a ∨ r = .b) ∧ (i = .canon ∨ (∃ neg, i = .ovf neg) ∨ i = .unf ∨ i = .reset))

/-- Rule R31 (decision D11): no command marks a register "unwritten", and a mark ends only at a whole write of that register, never at a
SETN. -/
def Obligations.MarksEndOnlyAtWholeWrites : Prop :=
  ∀ (i : Instr) (s t : State) (r : RegId), exec i s = .next t →
    (s.isUnwritten r = false → t.isUnwritten r = false) ∧
    (s.isUnwritten r = true → t.isUnwritten r = false →
      (∃ v, i = .wr r v) ∨
      (r = .c ∧ (i = .canon ∨ (∃ neg, i = .ovf neg) ∨ i = .unf)) ∨
      ((r = .a ∨ r = .b) ∧ (i = .canon ∨ (∃ neg, i = .ovf neg) ∨ i = .unf ∨ i = .reset)))

/-- The register invariant for every register (rule R10, which the spec derives; 93 U1): from valid A and B, a command leaves a register with a
nibble above 9 only if it had one and was either left alone or changed by a SETN of one nibble. -/
def Obligations.CommandsKeepRegistersValid : Prop :=
  ∀ (i : Instr) (s t : State) (r : RegId), s.Inv → exec i s = .next t →
    ValidReg (t.readReg r) ∨
    (¬ ValidReg (s.readReg r) ∧ (t.readReg r = s.readReg r ∨ ∃ idx val, i = .setn r idx val))

/-- Every step keeps the invariant (rule R10, which the spec derives). -/
def Obligations.EveryStepKeepsTheInvariant : Prop :=
  ∀ s t : State, s.Inv → step s = .next t → t.Inv

/-- Every step ends (rules R156, R239): with no register marked "unwritten" no step faults or is refused; it keeps that, keeps the
parameters, and takes one command off the stream. -/
def Obligations.EveryStepEnds : Prop :=
  ∀ s : State, s.AllWritten →
    ∃ t, step s = .next t ∧ t.AllWritten ∧ t.cfg = s.cfg ∧ t.pending = s.pending.tail

/-- Rule R205 (decision D20): a command that ends with a STATUS other than OK changes no register and answers RDATA 0. -/
def Obligations.ErrorsChangeNoRegister : Prop :=
  ∀ (s t : State) (status : Status) (rdata : Reg),
    s.pending ≠ [] → step s = .next t →
    t.response = some { status := status, rdata := rdata } → status ≠ .ok →
    t.regs = s.regs ∧ t.unwritten = s.unwritten ∧ t.cfg = s.cfg ∧ rdata = 0

/-- Rule R78 (decision D28): RDATA is 0 after every command that is not an RD. -/
def Obligations.RdataIsZeroUnlessRead : Prop :=
  ∀ (i : Instr) (s : State), (∀ r, i ≠ .rd r) →
    ∃ t status, exec i s = .next t ∧ t.response = some { status := status, rdata := 0 }

/-- Rule R28 (decision D20): the response of one command is not read by the next. -/
def Obligations.ResponsesAreNeverRead : Prop :=
  ∀ (s : State) (p : Option Response), s.pending ≠ [] → step { s with response := p } = step s

/-- Rule R57 (decision D18): commands take effect in issue order: one issued behind a pending command changes nothing of that one's step
and stands behind what was issued before it. -/
def Obligations.LaterCommandsWait : Prop :=
  ∀ (s u : State) (t : Transaction), s.pending ≠ [] → step s = .next u → step (s.issue t) = .next (u.issue t)

/-- The STATUS codes (rule R200, decision D21). -/
def Obligations.StatusCodesAreAsListed : Prop :=
  Status.ok.code = 0 ∧ Status.formatError.code = 1 ∧ Status.indexRange.code = 2 ∧ Status.illegalCommand.code = 3

/-! ### Decoding and the step -/

/-- Decoding gives back what was encoded, every operand at every value (rules R71 to R74, R79; decisions D3 to D5). -/
def Obligations.DecodeOfEncodeIsTheCommand : Prop := ∀ i : Instr, decode (encode i) = .ok i

/-- A word that decodes is the encoding of what it decodes to, so each word has one meaning (rules R75, R77; decision D6). WDATA comes back
for WR, the only command that reads it (rule R78). -/
def Obligations.EncodeOfDecodeIsTheWord : Prop :=
  ∀ (t : Transaction) (i : Instr), decode t = .ok i →
    (encode i).cw = t.cw ∧ ∀ r v, i = .wr r v → v = t.wdata

/-- The words of rule R76 (decision D6), and no others, end with IllegalCommand. -/
def Obligations.IllegalWordsAreExactlyTheListed : Prop :=
  ∀ (s : State) (t : Transaction) (rest : List Transaction), s.pending = t :: rest →
    (IllegalWord s.cfg t.cw ↔
      ∃ u, step s = .next u ∧ u.response = some { status := .illegalCommand, rdata := 0 })

/-- Some command words, written out from rules R71 to R74, and what they decode to. -/
def Obligations.SampleWordsDecode : Prop :=
  decode { cw := 0b0001000000000000#16, wdata := 0 } = .ok .canon ∧
  decode { cw := 0b0010000000000001#16, wdata := 0 } = .ok (.ovf true) ∧
  decode { cw := 0b0100010100000000#16, wdata := 0 } = .ok (.rd .f) ∧
  decode { cw := 0b0101011000000000#16, wdata := 0x01500000000905#56 } = .ok (.wr .m 0x01500000000905#56) ∧
  decode { cw := 0b0110000110100010#16, wdata := 0 } = .ok (.setn .b 10 2)

/-- A step runs the decoded command, on the state without it in the stream (rules R57, R70; that the stream stands in the state is the
model's choice, log 4). -/
def Obligations.StepRunsTheDecodedCommand : Prop :=
  ∀ (s : State) (t : Transaction) (rest : List Transaction) (i : Instr),
    s.pending = t :: rest → decode t = .ok i → step s = exec i { s with pending := rest }

/-- A step with no command pending leaves the state as it is: nothing reaches the block but commands (rule R208; the idle step is the model's
choice, log 4). -/
def Obligations.BlockIdlesWithoutACommand : Prop := ∀ s : State, s.pending = [] → step s = .next s

/-- A table word placed as the next command is the next command that runs. This is a statement about the model's own choices, and no rule of the
spec says it: rule R70 gives the sequence of transactions and rule R77 the widths of CW and WDATA, but that withFetchWord puts a word in
front of the stream is log 4 (DESIGN CHOICE), and that a transaction is numbered as one word of 72 bits is log 10 (DESIGN CHOICE). -/
def Obligations.PlacedWordRunsNext : Prop :=
  ∀ (s : State) (nbits w : Nat) (i : Instr), decodeTableWord nbits w = some i → step (s.withFetchWord nbits w) = exec i s

/-! ### The host's side -/

/-- Rule R102: a text of other than 14 characters, or with a character that is no decimal digit, gives FormatError and no value;
any other gives the register whose nibble `13 - k` is the digit at position `k`. -/
def Obligations.ConstructTakesExactlyDigitTexts : Prop :=
  ∀ t : Text,
    (t.length ≠ 14 → construct t = .error (.length t.length)) ∧
    (t.length = 14 → (∀ k < 14, '0' ≤ t.getD k ' ' ∧ t.getD k ' ' ≤ '9') →
      ∃ v, construct t = .ok v ∧ ∀ k < 14, (nib v (13 - k)).toNat = (t.getD k ' ').toNat - '0'.toNat) ∧
    (t.length = 14 → ∀ k < 14, (∀ j < k, '0' ≤ t.getD j ' ' ∧ t.getD j ' ' ≤ '9') →
      ¬ ('0' ≤ t.getD k ' ' ∧ t.getD k ' ' ≤ '9') → construct t = .error (.character k))

/-- The round trip of the text form (rule R104, the source's property 1, which the spec derives), in both directions. -/
def Obligations.TextRoundTrip : Prop :=
  (∀ t : Text, t.length = 14 → (∀ ch ∈ t, '0' ≤ ch ∧ ch ≤ '9') → ∃ v, construct t = .ok v ∧ render v = t) ∧
  ∀ v : Reg, ValidReg v → construct (render v) = .ok v

/-- ENTER (rules R79, R80; decision D25): with both texts well formed, issued to a block with no command pending, its three commands leave what
CANON leaves after A and B were written. -/
def Obligations.EnterWritesAThenBThenCanonicalizes : Prop :=
  ∀ (s : State) (ta tb : Text) (a b : Reg), s.pending = [] → construct ta = .ok a → construct tb = .ok b →
    Sys2Proof.core.run 3 (s.issueLine (.enter ta tb)) = exec .canon ((s.writeReg .a a).writeReg .b b)

/-- The assembler syntax reads back what it spells (rules R79, R80; decision D25; the exact spacing is the model's choice, log 11), for texts
that hold no quotation mark. -/
def Obligations.AssemblerReadsItsSpelling : Prop :=
  ∀ l : AsmLine,
    (∀ r t, l = .wr r t → quoteMark ∉ t) → (∀ a b, l = .enter a b → quoteMark ∉ a ∧ quoteMark ∉ b) →
    parseLine l.spell = some l
end

