-- ==== Sys2Proof/Laws/Nibbles.lean ====
section
/-!
SUPPORT. The laws of nibble access (rules R9, R52): reading after writing, that fourteen nibbles are the whole register, and what the
digit check of WR finds.
-/

namespace Sys2Proof.Machine

theorem nib_getLsbD (v : Reg) (i k : Nat) (hk : k < 4) : (nib v i).getLsbD k = v.getLsbD (4 * i + k) := by
  simp [nib, hk]

theorem setNib_getLsbD (v : Reg) (i : Nat) (d : Nibble) (hi : i < 14) (k : Nat) :
    (setNib v i d).getLsbD k = if 4 * i ≤ k ∧ k < 4 * i + 4 then d.getLsbD (k - 4 * i) else v.getLsbD k := by
  have h15 : ∀ j, (15#4).getLsbD j = decide (j < 4) := fun j => by
    by_cases hj : j < 4
    · interval_cases j <;> rfl
    · simp [BitVec.getLsbD_of_ge (15#4) j (by omega), hj]
  simp only [setNib, BitVec.getLsbD_or, BitVec.getLsbD_and, BitVec.getLsbD_not, BitVec.getLsbD_shiftLeft,
    BitVec.getLsbD_setWidth, h15]
  by_cases h1 : 4 * i ≤ k
  · by_cases h2 : k < 4 * i + 4
    · have a1 : k < 56 := by omega
      have a2 : ¬ k < 4 * i := by omega
      have a3 : k - 4 * i < 4 := by omega
      have a4 : k - 4 * i < 56 := by omega
      simp [h1, h2, a1, a2, a3, a4]
    · have a3 : ¬ k - 4 * i < 4 := by omega
      have hd : d.getLsbD (k - 4 * i) = false := BitVec.getLsbD_of_ge d _ (by omega)
      by_cases a1 : k < 56
      · simp [h1, h2, a1, a3, hd]
      · simp [h2, a1, BitVec.getLsbD_of_ge v k (by omega)]
  · have a2 : k < 4 * i := by omega
    by_cases a1 : k < 56
    · simp [h1, a1, a2]
    · simp [h1, a1, BitVec.getLsbD_of_ge v k (by omega)]

/-- A nibble after a nibble write (rules R9, R110). -/
theorem nib_setNib (v : Reg) (i j : Nat) (d : Nibble) (hi : i < 14) :
    nib (setNib v i d) j = if j = i then d else nib v j := by
  apply BitVec.eq_of_getLsbD_eq
  intro k hk
  rw [nib_getLsbD _ _ _ hk, setNib_getLsbD v i d hi]
  by_cases h : j = i
  · subst h
    have h1 : 4 * j ≤ 4 * j + k ∧ 4 * j + k < 4 * j + 4 := by omega
    simp [h1]
  · have h1 : ¬ (4 * i ≤ 4 * j + k ∧ 4 * j + k < 4 * i + 4) := by omega
    simp only [h1, if_false, h]
    rw [nib_getLsbD _ _ _ hk]

@[simp] theorem nib_setNib_self (v : Reg) (i : Nat) (d : Nibble) (hi : i < 14) : nib (setNib v i d) i = d := by
  rw [nib_setNib v i i d hi, if_pos rfl]

theorem nib_setNib_of_ne (v : Reg) {i j : Nat} (d : Nibble) (hi : i < 14) (h : j ≠ i) :
    nib (setNib v i d) j = nib v j := by
  rw [nib_setNib v i j d hi, if_neg h]

@[simp] theorem nib_zero (j : Nat) : nib 0 j = 0 := by simp [nib]

/-- Fourteen nibbles are the whole register (rule R52). -/
theorem reg_ext {v w : Reg} (h : ∀ j < 14, nib v j = nib w j) : v = w := by
  apply BitVec.eq_of_getLsbD_eq
  intro k hk
  have := congrArg (fun n => BitVec.getLsbD n (k % 4)) (h (k / 4) (by omega))
  simp only [nib_getLsbD _ _ _ (Nat.mod_lt k (by decide : 0 < 4))] at this
  rwa [Nat.div_add_mod] at this

/-- The digit check passes exactly when every nibble is a digit (rules R10, R105). -/
theorem firstBadNibble_eq_none {v : Reg} : firstBadNibble v = none ↔ ∀ i < 14, (nib v i).toNat ≤ 9 := by
  simp [firstBadNibble, isDigit]

end Sys2Proof.Machine
end

