-- ==== Sys2Proof/Laws/State.lean ====
section
/-!
SUPPORT. The record laws: what each update of the state leaves in each field, and what each accessor reads after it.
-/

namespace Sys2Proof.Machine

variable (s : State)

@[simp] theorem writeReg_cfg (r : RegId) (v : Reg) : (s.writeReg r v).cfg = s.cfg := rfl
@[simp] theorem writeReg_regs (r : RegId) (v : Reg) : (s.writeReg r v).regs = s.regs.set r v := rfl
@[simp] theorem writeReg_unwritten (r : RegId) (v : Reg) : (s.writeReg r v).unwritten = s.unwritten.set r false := rfl
@[simp] theorem writeReg_pending (r : RegId) (v : Reg) : (s.writeReg r v).pending = s.pending := rfl
@[simp] theorem writeReg_response (r : RegId) (v : Reg) : (s.writeReg r v).response = s.response := rfl

@[simp] theorem writeNibble_cfg (r : RegId) (i : Nat) (d : Nibble) : (s.writeNibble r i d).cfg = s.cfg := rfl
@[simp] theorem writeNibble_regs (r : RegId) (i : Nat) (d : Nibble) : (s.writeNibble r i d).regs = s.regs.set r (setNib (s.readReg r) i d) := rfl
@[simp] theorem writeNibble_unwritten (r : RegId) (i : Nat) (d : Nibble) : (s.writeNibble r i d).unwritten = s.unwritten := rfl
@[simp] theorem writeNibble_pending (r : RegId) (i : Nat) (d : Nibble) : (s.writeNibble r i d).pending = s.pending := rfl
@[simp] theorem writeNibble_response (r : RegId) (i : Nat) (d : Nibble) : (s.writeNibble r i d).response = s.response := rfl

@[simp] theorem succeed_cfg (v : Reg) : (s.succeed v).cfg = s.cfg := rfl
@[simp] theorem succeed_regs (v : Reg) : (s.succeed v).regs = s.regs := rfl
@[simp] theorem succeed_unwritten (v : Reg) : (s.succeed v).unwritten = s.unwritten := rfl
@[simp] theorem succeed_pending (v : Reg) : (s.succeed v).pending = s.pending := rfl
@[simp] theorem succeed_response (v : Reg) : (s.succeed v).response = some { status := .ok, rdata := v } := rfl

@[simp] theorem fail_cfg (e : CmdError) : (s.fail e).cfg = s.cfg := rfl
@[simp] theorem fail_regs (e : CmdError) : (s.fail e).regs = s.regs := rfl
@[simp] theorem fail_unwritten (e : CmdError) : (s.fail e).unwritten = s.unwritten := rfl
@[simp] theorem fail_pending (e : CmdError) : (s.fail e).pending = s.pending := rfl
@[simp] theorem fail_response (e : CmdError) : (s.fail e).response = some { status := e.status, rdata := 0 } := rfl

@[simp] theorem issue_cfg (t : Transaction) : (s.issue t).cfg = s.cfg := rfl
@[simp] theorem issue_regs (t : Transaction) : (s.issue t).regs = s.regs := rfl
@[simp] theorem issue_unwritten (t : Transaction) : (s.issue t).unwritten = s.unwritten := rfl
@[simp] theorem issue_pending (t : Transaction) : (s.issue t).pending = s.pending ++ [t] := rfl
@[simp] theorem issue_response (t : Transaction) : (s.issue t).response = s.response := rfl

@[simp] theorem withFetchWord_cfg (n w : Nat) : (s.withFetchWord n w).cfg = s.cfg := rfl
@[simp] theorem withFetchWord_regs (n w : Nat) : (s.withFetchWord n w).regs = s.regs := rfl
@[simp] theorem withFetchWord_unwritten (n w : Nat) : (s.withFetchWord n w).unwritten = s.unwritten := rfl
@[simp] theorem withFetchWord_pending (n w : Nat) : (s.withFetchWord n w).pending = tableTransaction n w :: s.pending := rfl
@[simp] theorem withFetchWord_response (n w : Nat) : (s.withFetchWord n w).response = s.response := rfl

@[simp] theorem writeNibble_isUnwritten (r : RegId) (i : Nat) (d : Nibble) (q : RegId) : (s.writeNibble r i d).isUnwritten q = s.isUnwritten q := rfl
@[simp] theorem succeed_readReg (v : Reg) (q : RegId) : (s.succeed v).readReg q = s.readReg q := rfl
@[simp] theorem succeed_isUnwritten (v : Reg) (q : RegId) : (s.succeed v).isUnwritten q = s.isUnwritten q := rfl
@[simp] theorem fail_readReg (e : CmdError) (q : RegId) : (s.fail e).readReg q = s.readReg q := rfl
@[simp] theorem fail_isUnwritten (e : CmdError) (q : RegId) : (s.fail e).isUnwritten q = s.isUnwritten q := rfl
@[simp] theorem issue_readReg (t : Transaction) (q : RegId) : (s.issue t).readReg q = s.readReg q := rfl
@[simp] theorem issue_isUnwritten (t : Transaction) (q : RegId) : (s.issue t).isUnwritten q = s.isUnwritten q := rfl
@[simp] theorem withFetchWord_readReg (n w : Nat) (q : RegId) : (s.withFetchWord n w).readReg q = s.readReg q := rfl
@[simp] theorem withFetchWord_isUnwritten (n w : Nat) (q : RegId) : (s.withFetchWord n w).isUnwritten q = s.isUnwritten q := rfl

/-! ### The seven-register record -/

section
variable {α : Type} (p : PerReg α)

@[simp] theorem PerReg.get_set_self (r : RegId) (v : α) : (p.set r v).get r = v := by cases r <;> rfl

theorem PerReg.get_set_of_ne {r q : RegId} (h : q ≠ r) (v : α) : (p.set r v).get q = p.get q := by
  cases r <;> cases q <;> first | rfl | exact absurd rfl h

theorem PerReg.get_set (r q : RegId) (v : α) : (p.set r v).get q = if q = r then v else p.get q := by
  split
  · next h => rw [h, PerReg.get_set_self]
  · next h => exact PerReg.get_set_of_ne p h v

/-- Records of seven that agree register by register are equal. -/
theorem PerReg.ext_get {p q : PerReg α} (h : ∀ r, p.get r = q.get r) : p = q := by
  obtain ⟨a, b, c, d, e, f, m⟩ := p
  obtain ⟨a', b', c', d', e', f', m'⟩ := q
  have ha := h .a; have hb := h .b; have hc := h .c; have hd := h .d; have he := h .e; have hf := h .f; have hm := h .m
  simp only [PerReg.get] at ha hb hc hd he hf hm
  subst ha hb hc hd he hf hm
  rfl

@[simp] theorem PerReg.set_set (r : RegId) (v w : α) : (p.set r v).set r w = p.set r w := by cases r <;> rfl

/-- Writing back what a register holds changes nothing. -/
theorem PerReg.set_get (r : RegId) : p.set r (p.get r) = p := by cases r <;> rfl

end

/-! ### Registers and marks after a write -/

@[simp] theorem writeReg_readReg_self (r : RegId) (v : Reg) : (s.writeReg r v).readReg r = v :=
  PerReg.get_set_self s.regs r v

theorem writeReg_readReg (r q : RegId) (v : Reg) : (s.writeReg r v).readReg q = if q = r then v else s.readReg q :=
  PerReg.get_set s.regs r q v

theorem writeReg_readReg_of_ne {r q : RegId} (h : q ≠ r) (v : Reg) : (s.writeReg r v).readReg q = s.readReg q :=
  PerReg.get_set_of_ne s.regs h v

theorem writeReg_isUnwritten (r q : RegId) (v : Reg) :
    (s.writeReg r v).isUnwritten q = if q = r then false else s.isUnwritten q :=
  PerReg.get_set s.unwritten r q false

@[simp] theorem writeReg_isUnwritten_self (r : RegId) (v : Reg) : (s.writeReg r v).isUnwritten r = false :=
  PerReg.get_set_self s.unwritten r false

@[simp] theorem writeNibble_readReg_self (r : RegId) (i : Nat) (d : Nibble) :
    (s.writeNibble r i d).readReg r = setNib (s.readReg r) i d :=
  PerReg.get_set_self s.regs r _

theorem writeNibble_readReg_of_ne {r q : RegId} (h : q ≠ r) (i : Nat) (d : Nibble) :
    (s.writeNibble r i d).readReg q = s.readReg q :=
  PerReg.get_set_of_ne s.regs h _

end Sys2Proof.Machine
end

