-- ==== Sys2Proof/Laws/Canon.lean ====
section
/-!
SUPPORT. What CANON's shared operations can do: the verdict on the sentinels (rule R174) and the inversion lemma of canonicalization.
-/

namespace Sys2Proof.Machine

variable (s : State)

/-- The canonical form of the power-on zero (rule R152). -/
abbrev canonicalZero : Reg := 0x00000000000990#56

@[simp] theorem loadZero_cfg : s.loadZero.cfg = s.cfg := rfl
@[simp] theorem loadZero_pending : s.loadZero.pending = s.pending := rfl
@[simp] theorem loadZero_response : s.loadZero.response = s.response := rfl
@[simp] theorem loadZero_readReg_a : s.loadZero.readReg .a = Config.zeroA := rfl
@[simp] theorem loadZero_readReg_b : s.loadZero.readReg .b = Config.zeroB := rfl
@[simp] theorem loadZero_isUnwritten_a : s.loadZero.isUnwritten .a = false := rfl
@[simp] theorem loadZero_isUnwritten_b : s.loadZero.isUnwritten .b = false := rfl

theorem loadZero_readReg_of_ne {q : RegId} (ha : q ≠ .a) (hb : q ≠ .b) : s.loadZero.readReg q = s.readReg q := by
  rw [State.loadZero, writeReg_readReg_of_ne _ hb, writeReg_readReg_of_ne _ ha]

theorem loadZero_isUnwritten_of_ne {q : RegId} (ha : q ≠ .a) (hb : q ≠ .b) :
    s.loadZero.isUnwritten q = s.isUnwritten q := by
  rw [State.loadZero, writeReg_isUnwritten, if_neg hb, writeReg_isUnwritten, if_neg ha]

@[simp] theorem loadOverflow_cfg (n : Bool) : (s.loadOverflow n).cfg = s.cfg := rfl
@[simp] theorem loadOverflow_pending (n : Bool) : (s.loadOverflow n).pending = s.pending := rfl
@[simp] theorem loadOverflow_response (n : Bool) : (s.loadOverflow n).response = s.response := rfl
@[simp] theorem loadOverflow_readReg_a (n : Bool) : (s.loadOverflow n).readReg .a = overflowA n := rfl
@[simp] theorem loadOverflow_readReg_b (n : Bool) : (s.loadOverflow n).readReg .b = overflowB := rfl
@[simp] theorem loadOverflow_isUnwritten_a (n : Bool) : (s.loadOverflow n).isUnwritten .a = false := rfl
@[simp] theorem loadOverflow_isUnwritten_b (n : Bool) : (s.loadOverflow n).isUnwritten .b = false := rfl

theorem loadOverflow_readReg_of_ne (n : Bool) {q : RegId} (ha : q ≠ .a) (hb : q ≠ .b) :
    (s.loadOverflow n).readReg q = s.readReg q := by
  rw [State.loadOverflow, writeReg_readReg_of_ne _ hb, writeReg_readReg_of_ne _ ha]

theorem loadOverflow_isUnwritten_of_ne (n : Bool) {q : RegId} (ha : q ≠ .a) (hb : q ≠ .b) :
    (s.loadOverflow n).isUnwritten q = s.isUnwritten q := by
  rw [State.loadOverflow, writeReg_isUnwritten, if_neg hb, writeReg_isUnwritten, if_neg ha]

/-- The overflow sentinel is in range and is its own canonical form, under both settings (rule R174). -/
theorem canonVerdict_overflow_sentinel (m : ExpMag) (neg : Bool) :
    canonVerdict m (overflowA neg) overflowB = .inRange (overflowA neg) := by
  cases m <;> cases neg <;> decide

/-- The underflow sentinel is in range and canonicalizes to zero with exponent -10, under both settings (rules R152, R174). -/
theorem canonVerdict_zero (m : ExpMag) : canonVerdict m Config.zeroA Config.zeroB = .inRange canonicalZero := by
  cases m <;> decide

theorem canonPasses_of_inRange {n : Nat} {c : Reg}
    (h : canonVerdict s.cfg.expMag (s.readReg .a) (s.readReg .b) = .inRange c) :
    canonPasses (n + 1) s = s.writeReg .c c := by
  rw [canonPasses, h]

theorem canonPasses_loadOverflow (n : Nat) (neg : Bool) :
    canonPasses (n + 1) (s.loadOverflow neg) = (s.loadOverflow neg).writeReg .c (overflowA neg) :=
  canonPasses_of_inRange _ (canonVerdict_overflow_sentinel s.cfg.expMag neg)

theorem canonPasses_loadZero (n : Nat) :
    canonPasses (n + 1) s.loadZero = s.loadZero.writeReg .c canonicalZero :=
  canonPasses_of_inRange _ (canonVerdict_zero s.cfg.expMag)

theorem canonicalize_of_inRange {c : Reg}
    (h : canonVerdict s.cfg.expMag (s.readReg .a) (s.readReg .b) = .inRange c) : s.canonicalize = s.writeReg .c c :=
  canonPasses_of_inRange s h

theorem canonicalize_of_overflow {neg : Bool}
    (h : canonVerdict s.cfg.expMag (s.readReg .a) (s.readReg .b) = .overflow neg) :
    s.canonicalize = (s.loadOverflow neg).writeReg .c (overflowA neg) := by
  rw [State.canonicalize, canonPasses, h]
  exact canonPasses_loadOverflow s 0 neg

theorem canonicalize_of_underflow
    (h : canonVerdict s.cfg.expMag (s.readReg .a) (s.readReg .b) = .underflow) :
    s.canonicalize = s.loadZero.writeReg .c canonicalZero := by
  rw [State.canonicalize, canonPasses, h]
  exact canonPasses_loadZero s 0

@[simp] theorem canonicalize_loadOverflow (neg : Bool) :
    (s.loadOverflow neg).canonicalize = (s.loadOverflow neg).writeReg .c (overflowA neg) :=
  canonPasses_loadOverflow s 1 neg

@[simp] theorem canonicalize_loadZero : s.loadZero.canonicalize = s.loadZero.writeReg .c canonicalZero :=
  canonPasses_loadZero s 1

/-- Everything canonicalization can do (rules R147, R170, R173, R174). -/
theorem canonicalize_cases :
    (∃ c, canonVerdict s.cfg.expMag (s.readReg .a) (s.readReg .b) = .inRange c ∧ s.canonicalize = s.writeReg .c c) ∨
    (∃ neg, canonVerdict s.cfg.expMag (s.readReg .a) (s.readReg .b) = .overflow neg ∧
      s.canonicalize = (s.loadOverflow neg).writeReg .c (overflowA neg)) ∨
    (canonVerdict s.cfg.expMag (s.readReg .a) (s.readReg .b) = .underflow ∧
      s.canonicalize = s.loadZero.writeReg .c canonicalZero) := by
  cases h : canonVerdict s.cfg.expMag (s.readReg .a) (s.readReg .b) with
  | inRange c => exact .inl ⟨c, rfl, canonicalize_of_inRange s h⟩
  | overflow neg => exact .inr (.inl ⟨neg, rfl, canonicalize_of_overflow s h⟩)
  | underflow => exact .inr (.inr ⟨rfl, canonicalize_of_underflow s h⟩)

/-- Which verdict the range check gives (rule R143). -/
theorem canonVerdict_of_inRange {m : ExpMag} {a b : Reg} (h1 : -99 ≤ adjustedExponent m a b)
    (h2 : adjustedExponent m a b ≤ 99) :
    canonVerdict m a b = .inRange (encodeExponent (scan a b).c (adjustedExponent m a b)) := by
  simp only [canonVerdict, Config.expLimit]
  rw [if_neg (by omega), if_neg (by omega)]

theorem canonVerdict_of_overflow {m : ExpMag} {a b : Reg} (h : 99 < adjustedExponent m a b) :
    canonVerdict m a b = .overflow (mantissaNegative a) := by
  simp only [canonVerdict, Config.expLimit]
  rw [if_pos h]

theorem canonVerdict_of_underflow {m : ExpMag} {a b : Reg} (h : adjustedExponent m a b < -99) :
    canonVerdict m a b = .underflow := by
  simp only [canonVerdict, Config.expLimit]
  rw [if_neg (by omega), if_pos h]

@[simp] theorem canonicalize_cfg : s.canonicalize.cfg = s.cfg := by
  obtain ⟨c, -, h⟩ | ⟨n, -, h⟩ | ⟨-, h⟩ := canonicalize_cases s <;> rw [h] <;> rfl

@[simp] theorem canonicalize_pending : s.canonicalize.pending = s.pending := by
  obtain ⟨c, -, h⟩ | ⟨n, -, h⟩ | ⟨-, h⟩ := canonicalize_cases s <;> rw [h] <;> rfl

/-- Canonicalization always leaves C written. -/
@[simp] theorem canonicalize_isUnwritten_c : s.canonicalize.isUnwritten .c = false := by
  obtain ⟨c, -, h⟩ | ⟨n, -, h⟩ | ⟨-, h⟩ := canonicalize_cases s <;> rw [h] <;> rfl

/-- Canonicalization leaves D, E, F and M alone (rule R147). -/
theorem canonicalize_readReg_of_ne {q : RegId} (ha : q ≠ .a) (hb : q ≠ .b) (hc : q ≠ .c) :
    s.canonicalize.readReg q = s.readReg q := by
  obtain ⟨c, -, h⟩ | ⟨n, -, h⟩ | ⟨-, h⟩ := canonicalize_cases s <;> rw [h, writeReg_readReg_of_ne _ hc]
  · exact loadOverflow_readReg_of_ne s n ha hb
  · exact loadZero_readReg_of_ne s ha hb

theorem canonicalize_isUnwritten_of_ne {q : RegId} (ha : q ≠ .a) (hb : q ≠ .b) (hc : q ≠ .c) :
    s.canonicalize.isUnwritten q = s.isUnwritten q := by
  obtain ⟨c, -, h⟩ | ⟨n, -, h⟩ | ⟨-, h⟩ := canonicalize_cases s <;> rw [h, writeReg_isUnwritten, if_neg hc]
  · exact loadOverflow_isUnwritten_of_ne s n ha hb
  · exact loadZero_isUnwritten_of_ne s ha hb

/-- The scan, step by step (rule R133). -/
theorem scan_eq (a b : Reg) :
    scan a b = [0, 1, 2, 3, 4, 5, 6, 7, 8, 9].foldl (scanStep a b) (Scan.start (signedZero a)) := rfl

end Sys2Proof.Machine
end

