-- ==== Sys2Proof/Laws/Exec.lean ====
section
/-!
SUPPORT. What each meaning and the step can do, said once: the equations later proofs rewrite with.
-/

namespace Sys2Proof.Machine

variable (s : State)

theorem exec_canon : exec .canon s = .next (s.canonicalize.succeed 0) := rfl

theorem exec_ovf (neg : Bool) :
    exec (.ovf neg) s = .next (((s.loadOverflow neg).writeReg .c (overflowA neg)).succeed 0) := by
  rw [exec, execOvf, canonicalize_loadOverflow]

theorem exec_unf : exec .unf s = .next ((s.loadZero.writeReg .c canonicalZero).succeed 0) := by
  rw [exec, execUnf, canonicalize_loadZero]

theorem exec_reset : exec .reset s = .next (s.loadZero.succeed 0) := rfl

theorem exec_rd {r : RegId} (h : s.isUnwritten r = false) : exec (.rd r) s = .next (s.succeed (s.readReg r)) := by
  simp [exec, execRd, h]

theorem exec_rd_unwritten {r : RegId} (h : s.isUnwritten r = true) : exec (.rd r) s = .fault (.unwrittenRead r) := by
  simp [exec, execRd, h]

/-- A write outside WRITABLE_REGS (rule R76(e)). -/
theorem exec_of_not_wellFormed {i : Instr} (h : i.wellFormed s.cfg = false) :
    exec i s = .next (s.fail (.illegalCommand (encodeWord i))) := by
  cases i <;> simp_all [exec, execWr, execSetn, ifWellFormed, Instr.wellFormed]

theorem exec_wr {r : RegId} {v : Reg} (hw : s.cfg.writable r = true) (hv : firstBadNibble v = none) :
    exec (.wr r v) s = .next ((s.writeReg r v).succeed 0) := by
  simp [exec, execWr, ifWellFormed, Instr.wellFormed, hw, hv]

theorem exec_wr_bad {r : RegId} {v : Reg} {i : Nat} (hw : s.cfg.writable r = true) (hv : firstBadNibble v = some i) :
    exec (.wr r v) s = .next (s.fail (.formatError i)) := by
  simp [exec, execWr, ifWellFormed, Instr.wellFormed, hw, hv]

theorem exec_setn {r : RegId} {idx val : Nibble} (hw : s.cfg.writable r = true) (hi : idx.toNat ≤ 13)
    (hv : val.toNat ≤ 9) : exec (.setn r idx val) s = .next ((s.writeNibble r idx.toNat val).succeed 0) := by
  simp [exec, execSetn, ifWellFormed, Instr.wellFormed, hw, isDigit, hv, Nat.not_lt.mpr hi]

theorem exec_setn_index {r : RegId} {idx val : Nibble} (hw : s.cfg.writable r = true) (hi : 13 < idx.toNat) :
    exec (.setn r idx val) s = .next (s.fail (.indexRange idx.toNat)) := by
  simp [exec, execSetn, ifWellFormed, Instr.wellFormed, hw, hi]

theorem exec_setn_value {r : RegId} {idx val : Nibble} (hw : s.cfg.writable r = true) (hi : idx.toNat ≤ 13)
    (hv : 9 < val.toNat) : exec (.setn r idx val) s = .next (s.fail (.formatError val.toNat)) := by
  simp [exec, execSetn, ifWellFormed, Instr.wellFormed, hw, isDigit, Nat.not_lt.mpr hi, Nat.not_le.mpr hv]

/-- Everything a command that ends can do: one arm for each way to end. -/
theorem exec_cases {i : Instr} {t : State} (h : exec i s = .next t) :
    (∃ e, t = s.fail e) ∨
    (i = .canon ∧ t = s.canonicalize.succeed 0) ∨
    (∃ neg, i = .ovf neg ∧ t = ((s.loadOverflow neg).writeReg .c (overflowA neg)).succeed 0) ∨
    (i = .unf ∧ t = (s.loadZero.writeReg .c canonicalZero).succeed 0) ∨
    (∃ r, i = .rd r ∧ s.isUnwritten r = false ∧ t = s.succeed (s.readReg r)) ∨
    (∃ r v, i = .wr r v ∧ s.cfg.writable r = true ∧ (∀ j < 14, (nib v j).toNat ≤ 9) ∧
      t = (s.writeReg r v).succeed 0) ∨
    (∃ r idx val, i = .setn r idx val ∧ s.cfg.writable r = true ∧ idx.toNat ≤ 13 ∧ val.toNat ≤ 9 ∧
      t = (s.writeNibble r idx.toNat val).succeed 0) ∨
    (i = .reset ∧ t = s.loadZero.succeed 0) := by
  cases i with
  | canon => rw [exec_canon] at h; cases h; exact .inr (.inl ⟨rfl, rfl⟩)
  | ovf neg => rw [exec_ovf] at h; cases h; exact .inr (.inr (.inl ⟨neg, rfl, rfl⟩))
  | unf => rw [exec_unf] at h; cases h; exact .inr (.inr (.inr (.inl ⟨rfl, rfl⟩)))
  | rd r =>
    cases hu : s.isUnwritten r with
    | true => rw [exec_rd_unwritten s hu] at h; cases h
    | false =>
      rw [exec_rd s hu] at h; cases h
      exact .inr (.inr (.inr (.inr (.inl ⟨r, rfl, hu, rfl⟩))))
  | wr r v =>
    cases hw : s.cfg.writable r with
    | false => rw [exec_of_not_wellFormed s (i := .wr r v) hw] at h; cases h; exact .inl ⟨_, rfl⟩
    | true =>
      cases hv : firstBadNibble v with
      | some i => rw [exec_wr_bad s hw hv] at h; cases h; exact .inl ⟨_, rfl⟩
      | none =>
        rw [exec_wr s hw hv] at h; cases h
        exact .inr (.inr (.inr (.inr (.inr (.inl ⟨r, v, rfl, hw, firstBadNibble_eq_none.mp hv, rfl⟩)))))
  | setn r idx val =>
    cases hw : s.cfg.writable r with
    | false => rw [exec_of_not_wellFormed s (i := .setn r idx val) hw] at h; cases h; exact .inl ⟨_, rfl⟩
    | true =>
      by_cases hi : idx.toNat ≤ 13
      · by_cases hv : val.toNat ≤ 9
        · rw [exec_setn s hw hi hv] at h; cases h
          exact .inr (.inr (.inr (.inr (.inr (.inr (.inl ⟨r, idx, val, rfl, hw, hi, hv, rfl⟩))))))
        · rw [exec_setn_value s hw hi (by omega)] at h; cases h; exact .inl ⟨_, rfl⟩
      · rw [exec_setn_index s hw (by omega)] at h; cases h; exact .inl ⟨_, rfl⟩
  | reset => rw [exec_reset] at h; cases h; exact .inr (.inr (.inr (.inr (.inr (.inr (.inr ⟨rfl, rfl⟩))))))

/-- Everything a step can do when a command is pending. -/
theorem step_of_pending {t : Transaction} {rest : List Transaction} (h : s.pending = t :: rest) :
    step s = match decode t with
      | .error _ => .next (({ s with pending := rest } : State).fail (.illegalCommand t.cw))
      | .ok i => exec i { s with pending := rest } := by
  cases hd : decode t <;> simp only [step, State.fetch, h, hd]

theorem step_of_idle (h : s.pending = []) : step s = .next s := by
  simp only [step, State.fetch, h]

end Sys2Proof.Machine
end

