-- ==== Sys2Proof/Laws/PerInstr.lean ====
section
/-!
SUPPORT. Statements for every command, one lemma for each constructor. EncodedFields: the command word of a command has its opcode of
rule R74 in CW[15:12] and a zero reserved bit (rule R71), and its WDATA is zero unless it is WR (rule R78).
-/

namespace Sys2Proof.Laws.EncodedFields

/-- The opcode map (rule R74). -/
def opcode : Instr → BitVec 4
  | .canon      => 1
  | .ovf _      => 2
  | .unf        => 3
  | .rd _       => 4
  | .wr _ _     => 5
  | .setn _ _ _ => 6
  | .reset      => 7

/-- The opcode, the reserved bit and the write data of an encoded command. -/
def Statement (i : Instr) : Prop :=
  opField (encode i).cw = opcode i ∧ rsvField (encode i).cw = 0 ∧ ((∀ r v, i ≠ .wr r v) → (encode i).wdata = 0)

theorem canon : Statement .canon := ⟨rfl, rfl, fun _ => rfl⟩

theorem ovf (neg : Bool) : Statement (.ovf neg) := by cases neg <;> exact ⟨rfl, rfl, fun _ => rfl⟩

theorem unf : Statement .unf := ⟨rfl, rfl, fun _ => rfl⟩

theorem rd (r : RegId) : Statement (.rd r) := by cases r <;> exact ⟨rfl, rfl, fun _ => rfl⟩

theorem wr (r : RegId) (wdata : Reg) : Statement (.wr r wdata) := by
  refine ⟨?_, ?_, fun h => absurd rfl (h _ _)⟩
  · change opField (withRid 0x5000 r) = 5
    cases r <;> decide
  · change rsvField (withRid 0x5000 r) = 0
    cases r <;> decide

theorem setn (r : RegId) (idx val : Nibble) : Statement (.setn r idx val) := by
  refine ⟨?_, ?_, fun _ => rfl⟩ <;> cases r <;> revert idx val <;> decide

theorem reset : Statement .reset := ⟨rfl, rfl, fun _ => rfl⟩

end Sys2Proof.Laws.EncodedFields
end

