-- ==== Sys2Proof/Laws/Scan.lean ====
section
/-!
SUPPORT. What the significant-digit scan and the exponent encoding can do, said once: the closed forms' indices, the state of the scan after
any number of steps, and the nibbles of an encoded exponent.
-/

namespace Sys2Proof.Machine

/-- The first hit of a search in a strictly falling list: nothing above it in the list is a hit. -/
theorem find_falling {P : Nat → Bool} {l : List Nat} {f : Nat} (hl : l.Pairwise (· > ·)) (h : l.find? P = some f) :
    f ∈ l ∧ P f = true ∧ ∀ i ∈ l, f < i → P i = false := by
  rw [List.find?_eq_some_iff_append] at h
  obtain ⟨hp, as, bs, rfl, has⟩ := h
  refine ⟨by simp, hp, fun i hi hlt => ?_⟩
  rw [List.pairwise_append] at hl
  rcases List.mem_append.mp hi with hi | hi
  · simpa using has i hi
  · rcases List.mem_cons.mp hi with rfl | hi
    · omega
    · have := (List.pairwise_cons.mp hl.2.1).1 i hi
      omega

/-- The index of the first significant digit of rule R138, with 2 where the mantissa is all zero. -/
def leadIndex (a : Reg) : Nat := (firstDigit a).getD 2

theorem leadIndex_spec (a : Reg) :
    2 ≤ leadIndex a ∧ leadIndex a ≤ 12 ∧ (3 ≤ leadIndex a → nib a (leadIndex a) ≠ 0) ∧
    ∀ i, leadIndex a < i → i ≤ 12 → nib a i = 0 := by
  unfold leadIndex
  cases h : firstDigit a with
  | none =>
    rw [firstDigit, List.find?_eq_none] at h
    refine ⟨by simp, by simp, by simp, fun i h1 h2 => ?_⟩
    simpa using h i (by simp at h1 ⊢; omega)
  | some f =>
    obtain ⟨hm, hp, hz⟩ := find_falling (by decide) h
    simp only [Option.getD_some]
    refine ⟨by simp at hm; omega, by simp at hm; omega, fun _ => by simpa using hp, fun i h1 h2 => ?_⟩
    simpa using hz i (by simp at hm ⊢; omega) h1

theorem pointIndex_spec (b : Reg) :
    3 ≤ pointIndex b ∧ pointIndex b ≤ 13 ∧ (4 ≤ pointIndex b → nib b (pointIndex b) = 2) ∧
    ∀ i, pointIndex b < i → i ≤ 13 → nib b i ≠ 2 := by
  unfold pointIndex
  cases h : List.find? (fun i => nib b i == 2) [13, 12, 11, 10, 9, 8, 7, 6, 5, 4] with
  | none =>
    rw [List.find?_eq_none] at h
    refine ⟨by simp, by simp, by simp, fun i h1 h2 => ?_⟩
    simpa using h i (by simp at h1 ⊢; omega)
  | some p =>
    obtain ⟨hm, hp, hz⟩ := find_falling (by decide) h
    simp only [Option.getD_some]
    refine ⟨by simp at hm; omega, by simp at hm; omega, fun _ => by simpa using hp, fun i h1 h2 => ?_⟩
    simpa using hz i (by simp at hm ⊢; omega) h1

/-- The scan after its first `k` steps. -/
def scanTo (a b : Reg) (k : Nat) : Scan := (List.range k).foldl (scanStep a b) (Scan.start (signedZero a))

theorem scanTo_ten (a b : Reg) : scanTo a b 10 = scan a b := rfl

theorem scanTo_succ (a b : Reg) (k : Nat) : scanTo a b (k + 1) = scanStep a b (scanTo a b k) k := by
  simp [scanTo, List.range_succ]

/-- The digit flag of step `k` (rule R134). -/
theorem digit_flag (a : Reg) {k : Nat} (hk : k < 10) :
    (decide (12 < leadIndex a + k) || nib a (12 - k) != 0) = decide (12 < leadIndex a + (k + 1)) := by
  obtain ⟨h2, h12, hne, hz⟩ := leadIndex_spec a
  rcases Nat.lt_trichotomy (leadIndex a + k) 12 with h | h | h
  · rw [hz (12 - k) (by omega) (by omega)]
    simp; omega
  · have h3 := hne (by omega)
    rw [show 12 - k = leadIndex a by omega, show (nib a (leadIndex a) != 0) = true by simpa using h3, Bool.or_true]
    simp; omega
  · simp [h]; omega

/-- The decimal-point flag of step `k` (rule R134). -/
theorem point_flag (b : Reg) {k : Nat} (hk : k < 10) :
    (decide (13 < pointIndex b + k) || isMarker (nib b (13 - k))) = decide (13 < pointIndex b + (k + 1)) := by
  obtain ⟨h3, h13, he, hz⟩ := pointIndex_spec b
  rcases Nat.lt_trichotomy (pointIndex b + k) 13 with h | h | h
  · have := hz (13 - k) (by omega) (by omega)
    rw [show isMarker (nib b (13 - k)) = false by simpa [isMarker] using this, Bool.or_false]
    simp; omega
  · rw [show 13 - k = pointIndex b by omega, isMarker, he (by omega)]
    simp; omega
  · simp [h]; omega

/-- The whole state of the scan after `k` steps (rules R133 to R137). -/
theorem scanTo_spec (a b : Reg) (k : Nat) (hk : k ≤ 10) :
    (scanTo a b k).foundDigit = decide (12 < leadIndex a + k) ∧
    (scanTo a b k).foundDecimal = decide (13 < pointIndex b + k) ∧
    (scanTo a b k).ci = 12 - (leadIndex a + k - 12) ∧
    (scanTo a b k).dbd = ((leadIndex a + k - 12 : Nat) : Int) - ((pointIndex b + k - 13 : Nat) : Int) ∧
    ∀ j < 14, nib (scanTo a b k).c j =
      if j = 13 then signNibble (mantissaNegative a)
      else if 3 ≤ j ∧ 12 < j + (leadIndex a + k - 12) then nib a (leadIndex a + j - 12) else 0 := by
  obtain ⟨l2, l12, -, -⟩ := leadIndex_spec a
  obtain ⟨p3, p13, -, -⟩ := pointIndex_spec b
  induction k with
  | zero =>
    simp only [scanTo, List.range_zero, List.foldl_nil, Scan.start]
    refine ⟨by symm; simp; omega, by symm; simp; omega, by omega, by omega, fun j hj => ?_⟩
    rw [signedZero, nib_setNib _ _ _ _ (by omega)]
    split
    · rfl
    · rw [if_neg (by omega), nib_zero]
  | succ k ih =>
    obtain ⟨i1, i2, i3, i4, i5⟩ := ih (by omega)
    rw [scanTo_succ]
    simp only [scanStep, i1, i2, digit_flag a (show k < 10 by omega), point_flag b (show k < 10 by omega)]
    refine ⟨trivial, trivial, ?_, ?_, fun j hj => ?_⟩
    · rw [i3]; split <;> rename_i h <;> simp at h <;> omega
    · rw [i4, countStep]
      by_cases c1 : 12 < leadIndex a + (k + 1) <;> by_cases c2 : 13 < pointIndex b + (k + 1) <;> simp [c1, c2] <;> omega
    · by_cases c1 : 12 < leadIndex a + (k + 1)
      · simp only [c1, decide_true, if_true]
        rw [nib_setNib _ _ _ _ (by omega), i5 j hj, i3]
        by_cases hcur : j = 12 - (leadIndex a + k - 12)
        · rw [if_pos hcur, if_neg (by omega), if_pos (by omega)]
          congr 1; omega
        · rw [if_neg hcur]
          have : (3 ≤ j ∧ 12 < j + (leadIndex a + (k + 1) - 12)) ↔ (3 ≤ j ∧ 12 < j + (leadIndex a + k - 12)) := by omega
          simp only [this]
      · simp only [c1, decide_false]
        rw [if_neg (by simp), i5 j hj]
        have : (3 ≤ j ∧ 12 < j + (leadIndex a + (k + 1) - 12)) ↔ (3 ≤ j ∧ 12 < j + (leadIndex a + k - 12)) := by omega
        simp only [this]

/-- The nibbles of an encoded exponent (rules R144, R145), and that the others stay. -/
theorem encodeExponent_spec (c : Reg) (adj : Int) (mag : Nat) (hm : mag = (if adj < 0 then -(adj + 1) else adj).toNat) :
    (∀ p < 3, (nib (encodeExponent c adj) p).toNat = if adj < 0 then 9 - mag / 10 ^ p % 10 else mag / 10 ^ p % 10) ∧
    ∀ j, 3 ≤ j → nib (encodeExponent c adj) j = nib c j := by
  subst hm
  have steps : ∀ (n : Bool) (m : Nat), ([0, 1, 2].foldl (exponentStep n) (c, m)).1 =
      setNib (setNib (setNib c 0 (BitVec.ofNat 4 (if n then 9 - m % 10 else m % 10)))
        1 (BitVec.ofNat 4 (if n then 9 - m / 10 % 10 else m / 10 % 10)))
        2 (BitVec.ofNat 4 (if n then 9 - m / 10 / 10 % 10 else m / 10 / 10 % 10)) := fun n m => by simp [exponentStep]
  simp only [encodeExponent, steps]
  refine ⟨fun p hp => ?_, fun j h3 => ?_⟩
  · have : p = 0 ∨ p = 1 ∨ p = 2 := by omega
    rcases this with rfl | rfl | rfl <;> simp [nib_setNib] <;> split <;> omega
  · rw [nib_setNib_of_ne _ _ (by omega) (by omega), nib_setNib_of_ne _ _ (by omega) (by omega),
      nib_setNib_of_ne _ _ (by omega) (by omega)]

end Sys2Proof.Machine
end

