-- ==== Sys2Proof/Tests/Slice0.lean ====
section
/-!
SUPPORT. Small tests of one step each, with expected results from spec/95_test_vectors.md (the vector is named), the well-formedness
smoke tests, the decoding of words written out from rules R71 to R74, and a witness for the hypotheses of each statement.
-/

namespace Sys2Proof.Tests

open Sys2Proof Sys2Proof.Machine

/-! ### Helpers -/

/-- A small state: the power-on state with a setting of EXP_MAG_POSITIONS and contents of A and B. -/
def entry (m : ExpMag) (a b : Reg) : State :=
  let s := State.powerOn { Config.default with expMag := m } .unwritten
  { s with regs := { s.regs with a := a, b := b } }

/-- The power-on state with one command pending. -/
def pendingOne (cw : CmdWord) (wdata : Reg) : State := State.reset.issue { cw := cw, wdata := wdata }

/-- What a command left in A, B and C. -/
def abc : Host.Outcome State Fault Refusal → Option (Reg × Reg × Reg)
  | .next t    => some (t.readReg .a, t.readReg .b, t.readReg .c)
  | .fault _   => none
  | .refused _ => none

/-- How a command ended. -/
def answer : Host.Outcome State Fault Refusal → Option Response
  | .next t    => t.response
  | .fault _   => none
  | .refused _ => none

/-- What a command left in one register. -/
def regAfter (r : RegId) : Host.Outcome State Fault Refusal → Option Reg
  | .next t    => some (t.readReg r)
  | .fault _   => none
  | .refused _ => none

/-- Whether a register is marked "unwritten" after a command. -/
def markAfter (r : RegId) : Host.Outcome State Fault Refusal → Option Bool
  | .next t    => some (t.isUnwritten r)
  | .fault _   => none
  | .refused _ => none

/-! ### Well-formedness: each check refuses an ill-formed term (rule R76(e), vector X11) -/

theorem test_wellFormed_refuses_wr_outside_writable : (Instr.wr .c 0).wellFormed Config.strict = false := by decide

theorem test_wellFormed_refuses_setn_outside_writable : (Instr.setn .m 0 0).wellFormed Config.strict = false := by decide

theorem test_wellFormed_admits_default : (Instr.wr .c 0).wellFormed Config.default = true := by decide

/-! ### Decoding: words written out bit by bit, op, rsv, rid, idx, val (rules R71 to R74; vectors X1 to X12) -/

theorem test_decode_canon : decode { cw := 0b0001_0_000_0000_0000#16, wdata := 0 } = .ok .canon := by decide

theorem test_decode_ovf_pos : decode { cw := 0b0010_0_000_0000_0000#16, wdata := 0 } = .ok (.ovf false) := by decide

theorem test_decode_ovf_neg : decode { cw := 0b0010_0_000_0000_0001#16, wdata := 0 } = .ok (.ovf true) := by decide

theorem test_decode_unf : decode { cw := 0b0011_0_000_0000_0000#16, wdata := 0 } = .ok .unf := by decide

theorem test_decode_rd_m : decode { cw := 0b0100_0_110_0000_0000#16, wdata := 0 } = .ok (.rd .m) := by decide

theorem test_decode_wr_c :
    decode { cw := 0b0101_0_010_0000_0000#16, wdata := 0x00000000000005#56 } = .ok (.wr .c 0x00000000000005#56) := by
  decide

theorem test_decode_setn_m_9_15 : decode { cw := 0b0110_0_110_1001_1111#16, wdata := 0 } = .ok (.setn .m 9 15) := by
  decide

theorem test_decode_reset : decode { cw := 0b0111_0_000_0000_0000#16, wdata := 0 } = .ok .reset := by decide

theorem test_decode_refuses_reserved_opcodes :
    [0x0000#16, 0x8000#16, 0xF000#16, 0xFFFF#16].map (fun cw => decode { cw := cw, wdata := 0 })
      = List.replicate 4 (.error .reservedOpcode) := by decide

theorem test_decode_refuses_reserved_bit :
    [0x1800#16, 0x6D9F#16].map (fun cw => decode { cw := cw, wdata := 0 })
      = List.replicate 2 (.error .reservedBit) := by decide

theorem test_decode_refuses_unused_fields :
    [0x1001#16, 0x1100#16, 0x3010#16, 0x7001#16, 0x2002#16, 0x2100#16, 0x4380#16, 0x4301#16, 0x5010#16].map
      (fun cw => decode { cw := cw, wdata := 0 }) = List.replicate 9 (.error .unusedField) := by decide

theorem test_decode_refuses_rid_7 :
    [0x4700#16, 0x5700#16, 0x6700#16].map (fun cw => decode { cw := cw, wdata := 0 })
      = List.replicate 3 (.error .reservedRid) := by decide

theorem test_decodeTableWord_setn : decodeTableWord 16 0x60C1 = some (.setn .a 12 1) := by decide

/-! ### One step each, from the vectors -/

/-- V1, V3, V6, V9, V14, V16 and V20: power-on zero, leading zeros, the step order, a negative exponent, the top of the range, an odd sign
nibble, the lowest adjusted exponent. -/
theorem test_canon_vectors :
    [(0x00000000000000#56, 0x02999999999999#56), (0x00050000000000#56, 0x02999999999999#56),
      (0x01234567890000#56, 0x09999999992999#56), (0x01500000000905#56, 0x02999999999999#56),
      (0x09900000000099#56, 0x02999999999999#56), (0x51500000000000#56, 0x02999999999999#56),
      (0x00000000000999#56, 0x20000000000000#56)].map
        (fun e => regAfter .c (exec .canon (entry .two e.1 e.2)))
      = [some 0x00000000000990#56, some 0x05000000000998#56, some 0x01234567890009#56, some 0x01500000000995#56,
          some 0x09900000000099#56, some 0x01500000000000#56, some 0x00000000000990#56] := by decide

/-- V13 (overflow, negative), V9 and V17 with three magnitude positions (underflow, overflow). -/
theorem test_canon_range_errors :
    abc (exec .canon (entry .two 0x91200000000099#56 0x09299999999999#56))
      = some (0x99999999999099#56, 0x02000000000000#56, 0x99999999999099#56) ∧
    abc (exec .canon (entry .three 0x01500000000905#56 0x02999999999999#56))
      = some (0x00000000000000#56, 0x02999999999999#56, 0x00000000000990#56) ∧
    abc (exec .canon (entry .three 0x01500000000512#56 0x02999999999999#56))
      = some (0x09999999999099#56, 0x02000000000000#56, 0x09999999999099#56) := by decide

/-- O1 and O2. -/
theorem test_ovf : abc (exec (.ovf false) State.reset) = some (0x09999999999099#56, 0x02000000000000#56, 0x09999999999099#56) ∧
    abc (exec (.ovf true) State.reset) = some (0x99999999999099#56, 0x02000000000000#56, 0x99999999999099#56) := by decide

/-- O3. -/
theorem test_unf : abc (exec .unf (entry .two 0x91500000000905#56 0))
    = some (0x00000000000000#56, 0x02999999999999#56, 0x00000000000990#56) := by decide

/-- RD2. -/
theorem test_rd_b : answer (step (pendingOne 0x4100 0)) = some { status := .ok, rdata := 0x02999999999999#56 } := by decide

/-- RD3: a model fault where POWER_ON_CDEFM is "unwritten". -/
theorem test_rd_c_unwritten :
    exec (.rd .c) (State.powerOn Config.default .unwritten) = .fault (.unwrittenRead .c) := by rfl

/-- W1. -/
theorem test_wr_a : regAfter .a (step (pendingOne 0x5000 0x01500000000000#56)) = some 0x01500000000000#56 := by decide

/-- W3. -/
theorem test_wr_b_format_error :
    answer (step (pendingOne 0x5100 0xF2999999999999#56)) = some { status := .formatError, rdata := 0 } ∧
    regAfter .b (step (pendingOne 0x5100 0xF2999999999999#56)) = some 0x02999999999999#56 := by decide

/-- N1, and N8: a SETN leaves the mark. -/
theorem test_setn : regAfter .a (step (pendingOne 0x60C1 0)) = some 0x01000000000000#56 ∧
    markAfter .d (exec (.setn .d 0 5) (State.powerOn Config.default .unwritten)) = some true := by decide

/-- N5 and N6: the index first, then the value. -/
theorem test_setn_errors : answer (step (pendingOne 0x60FF 0)) = some { status := .indexRange, rdata := 0 } ∧
    answer (step (pendingOne 0x60CA 0)) = some { status := .formatError, rdata := 0 } := by decide

/-- T2: RESET does not canonicalize. -/
theorem test_reset :
    abc (exec .reset ((entry .two 0x01500000000000#56 0x09299999999999#56).writeReg .c 0x01500000000000#56))
      = some (0x00000000000000#56, 0x02999999999999#56, 0x01500000000000#56) := by decide

/-- X1: a reserved opcode. -/
theorem test_illegal : answer (step (pendingOne 0x0000 0)) = some { status := .illegalCommand, rdata := 0 } := by decide

/-- CD5, CD6, CD8 and CD10. -/
theorem test_codec :
    construct "01500000000000".toList = .ok 0x01500000000000#56 ∧
    construct "0150000000000".toList = .error (.length 13) ∧
    construct "0150000000000x".toList = .error (.character 13) ∧
    render 0x90000000000905#56 = "90000000000905".toList := by decide

/-- P4 line 3 and P2 line 1, as text. -/
theorem test_assembler :
    (parseLine "SETN A, 14, 1".toList).map assemble = some [.ok { cw := 0x60E1, wdata := 0 }] ∧
    assemble (.wr .a "01500000000905".toList) = [.ok { cw := 0x5000, wdata := 0x01500000000905#56 }] := by decide

/-! ### Witnesses: each statement's hypotheses are met, each clause at a boundary -/

/-- A positive entry at the top of the range and one at its bottom (V14, V10), and the first ones outside (V12, V11): a boundary entry for each
clause of MantissaSignIsCarried and RangeErrorsRunTheSentinelCommands, among others. -/
theorem witness_adjusted_exponents :
    closedAdj .two 0x09900000000099#56 0x02999999999999#56 = 99 ∧
    closedAdj .two 0x01000000000999#56 0x02999999999999#56 = -99 ∧
    closedAdj .two 0x01200000000099#56 0x09299999999999#56 = 100 ∧
    closedAdj .two 0x00500000000999#56 0x02999999999999#56 = -100 ∧
    adjustedExponent .two 0x09900000000099#56 0x02999999999999#56 = 99 ∧
    adjustedExponent .two 0x01000000000999#56 0x02999999999999#56 = -99 ∧
    adjustedExponent .two 0x01200000000099#56 0x09299999999999#56 = 100 ∧
    adjustedExponent .two 0x00500000000999#56 0x02999999999999#56 = -100 := by decide

/-- CanonDerivesTheCanonicalForm, CanonPreservesTheValue. -/
theorem witness_in_range :
    -99 ≤ closedAdj (entry .two 0x01000000000999#56 0x02999999999999#56).cfg.expMag
      ((entry .two 0x01000000000999#56 0x02999999999999#56).readReg .a)
      ((entry .two 0x01000000000999#56 0x02999999999999#56).readReg .b) ∧
    closedAdj (entry .two 0x09900000000099#56 0x02999999999999#56).cfg.expMag
      ((entry .two 0x09900000000099#56 0x02999999999999#56).readReg .a)
      ((entry .two 0x09900000000099#56 0x02999999999999#56).readReg .b) ≤ 99 := by decide

/-- ExponentDigitsAreReencoded: a negative exponent at the bottom and a positive one at the top. -/
theorem witness_exponent_digits :
    ((-99 : Int) = adjustedExponent .two 0x01000000000999#56 0x02999999999999#56 ∧
      (98 : Int) = if (-99 : Int) < 0 then -(-99 + 1) else -99) ∧
    ((99 : Int) = adjustedExponent .two 0x09900000000099#56 0x02999999999999#56 ∧
      (99 : Int) = if (99 : Int) < 0 then -(99 + 1) else 99) := by decide

/-- IntermediateIntegersAreBounded: valid entries with the largest and the smallest count (V27, V19). -/
theorem witness_counts :
    ValidReg 0x01234567890000#56 ∧ (scan 0x01234567890000#56 0x99999999999999#56).dbd = 10 ∧
    ValidReg 0x00000000000000#56 ∧ (scan 0x00000000000000#56 0x20000000000000#56).dbd = -10 := by decide

/-- RdAnswersTheRegister, RdOfUnwrittenFaults. -/
theorem witness_marks :
    State.reset.isUnwritten .c = false ∧ (State.powerOn Config.default .unwritten).isUnwritten .m = true := by decide

/-- WrWritesTheRegister, WrRefusesNonDigits, and the SETN statements at the edges of their ranges. -/
theorem witness_writes :
    Config.default.writable .m = true ∧ ValidReg 0x99999999999999#56 ∧ ¬ ValidReg 0x0150000000000A#56 ∧
    (13 : Nibble).toNat ≤ 13 ∧ (9 : Nibble).toNat ≤ 9 ∧ 14 ≤ (14 : Nibble).toNat ∧ 10 ≤ (10 : Nibble).toNat := by decide

/-- DigitCheckFindsTheLowestBadNibble: both nibble 13 alone and nibble 0 with others. -/
theorem witness_bad_nibbles :
    firstBadNibble 0xF2999999999999#56 = some 13 ∧ firstBadNibble 0xF29999999F999A#56 = some 0 := by decide

/-- UnwritableTargetIsIllegal. -/
theorem witness_unwritable :
    (Instr.setn .c 14 15).wellFormed (State.powerOn Config.strict .unwritten).cfg = false := by decide

/-- CanonLeavesCanonicalForm, CommandsKeepRegistersValid, EveryStepKeepsTheInvariant, EveryStepEnds. -/
theorem witness_reset_invariants : State.reset.Inv ∧ State.reset.AllWritten := by
  refine ⟨by decide, fun r => ?_⟩
  cases r <;> rfl

/-- SignIsIsolated: V2 and V5. -/
theorem witness_sign_pair :
    nib 0x01500000000000#56 13 = 0 ∧ nib 0x91500000000000#56 13 = 9 ∧
    ∀ j < 13, nib 0x91500000000000#56 j = nib 0x01500000000000#56 j := by decide

/-- CanonReadsOnlyAAndB: two different states that agree on A, B and the setting. -/
theorem witness_same_entry :
    State.powerOn Config.default .unwritten ≠ entry .two 0 0 ∧
    ((State.powerOn Config.default .unwritten).writeReg .d 5).readReg .a = State.reset.readReg .a ∧
    ((State.powerOn Config.default .unwritten).writeReg .d 5).readReg .b = State.reset.readReg .b ∧
    ((State.powerOn Config.default .unwritten).writeReg .d 5).cfg.expMag = State.reset.cfg.expMag := by decide

/-- OnlyTheFirstMarkerMatters: V26 and the power-on B; no marker at all. -/
theorem witness_markers :
    pointIndex 0x02222222222222#56 = pointIndex 0x02999999999999#56 ∧
    pointIndex 0x09999999992999#56 = pointIndex 0x00000000000000#56 := by decide

/-- MagnitudeSettingsAgreeOnZeroHundreds and LiteralReadingUnderflowsNegativeExponents (V8, V9). -/
theorem witness_magnitude_settings :
    nib ((entry .two 0x01500000000012#56 0).readReg .a) 2 = 0 ∧
    (entry .three 0x01500000000905#56 0).cfg.expMag = .three ∧
    nib ((entry .three 0x01500000000905#56 0).readReg .a) 2 = 9 := by decide

/-- SentinelsAreOverwrites, ScratchRegistersAreUntouched, RdataIsZeroUnlessRead: instructions that meet the hypotheses. -/
theorem witness_instructions :
    ((∃ neg, Instr.ovf true = .ovf neg) ∨ Instr.ovf true = .unf) ∧
    (Instr.reset = .canon ∨ (∃ neg, Instr.reset = .ovf neg) ∨ Instr.reset = .unf ∨ Instr.reset = .reset) ∧
    ∀ r, Instr.canon ≠ .rd r :=
  ⟨.inl ⟨true, rfl⟩, .inr (.inr (.inr rfl)), fun r h => by cases h⟩

/-- OnlyItsWritersChangeARegister, MarksEndOnlyAtWholeWrites: UNF changes A and ends the mark of C. -/
theorem witness_unf_changes :
    regAfter .a (exec .unf (entry .two 5 0)) ≠ some ((entry .two 5 0).readReg .a) ∧
    (entry .two 5 0).isUnwritten .c = true ∧ markAfter .c (exec .unf (entry .two 5 0)) = some false := by decide

/-- ErrorsChangeNoRegister, ResponsesAreNeverRead, LaterCommandsWait, IllegalWordsAreExactlyTheListed: a pending command that ends with an
error. -/
theorem witness_pending_error :
    (pendingOne 0x4700 0).pending = [{ cw := 0x4700, wdata := 0 }] ∧
    answer (step (pendingOne 0x4700 0)) = some { status := .illegalCommand, rdata := 0 } ∧
    IllegalWord Config.default 0x4700 ∧ ¬ IllegalWord Config.default 0x4600 := by
  refine ⟨rfl, by decide, by simp [IllegalWord], ?_⟩
  simp [IllegalWord]

/-- StepRunsTheDecodedCommand, EncodeOfDecodeIsTheWord, PlacedWordRunsNext. -/
theorem witness_decoded :
    (pendingOne 0x1000 0).pending = { cw := 0x1000, wdata := 0 } :: [] ∧
    decode { cw := 0x1000, wdata := 0 } = .ok .canon ∧ decodeTableWord 16 0x1000 = some .canon := by decide

/-- BlockIdlesWithoutACommand. -/
theorem witness_idle : State.reset.pending = [] := by decide

/-- ConstructTakesExactlyDigitTexts, TextRoundTrip: a text of 14 digits, and one that is too short. -/
theorem witness_digit_text :
    "0299999999999".toList.length ≠ 14 ∧ "02999999999999".toList.length = 14 ∧
    ∀ k < 14, '0' ≤ "02999999999999".toList.getD k ' ' ∧ "02999999999999".toList.getD k ' ' ≤ '9' := by
  decide

/-- ConstructTakesExactlyDigitTexts: a text whose last character is the first that is no digit. -/
theorem witness_bad_text :
    "0150000000000x".toList.length = 14 ∧
    (∀ j < 13, '0' ≤ "0150000000000x".toList.getD j ' ' ∧ "0150000000000x".toList.getD j ' ' ≤ '9') ∧
    ¬ "0150000000000x".toList.getD 13 ' ' ≤ '9' := by decide

/-- EnterWritesAThenBThenCanonicalizes (P2). -/
theorem witness_enter :
    State.reset.pending = [] ∧ construct "01500000000905".toList = .ok 0x01500000000905#56 ∧
    construct "02999999999999".toList = .ok 0x02999999999999#56 := by decide

/-- AssemblerReadsItsSpelling: a line with a text, and one with two. -/
theorem witness_spelling :
    quoteMark ∉ "01500000000905".toList ∧
    parseLine (AsmLine.enter "01500000000905".toList "x, y".toList).spell
      = some (.enter "01500000000905".toList "x, y".toList) := by decide

end Sys2Proof.Tests
end

/-!
PROOFS. The register invariant of rule R10: a register that a command writes gets a valid value, provided A and B hold digits and a SETN
had a valid register to write into.
-/

namespace Sys2Proof.Machine

/-! ### The values that commands write are valid -/

theorem validReg_zeroA : ValidReg Config.zeroA := by decide
theorem validReg_zeroB : ValidReg Config.zeroB := by decide
theorem validReg_overflowA (neg : Bool) : ValidReg (overflowA neg) := by cases neg <;> decide
theorem validReg_overflowB : ValidReg overflowB := by decide
theorem validReg_canonicalZero : ValidReg canonicalZero := by decide

theorem signNibble_le_nine (neg : Bool) : (signNibble neg).toNat ≤ 9 := by cases neg <;> decide

theorem validReg_setNib {v : Reg} {i : Nat} {d : Nibble} (hv : ValidReg v) (hi : i < 14) (hd : d.toNat ≤ 9) :
    ValidReg (setNib v i d) := by
  intro j hj
  rw [nib_setNib v i j d hi]
  split
  · exact hd
  · exact hv j hj

/-- The scan copies digits of A below the sign nibble (rules R132, R135). -/
theorem validReg_scan {a : Reg} (b : Reg) (ha : ValidReg a) : ValidReg (scan a b).c := by
  obtain ⟨-, hlead, -, -⟩ := leadIndex_spec a
  obtain ⟨-, -, -, -, hnib⟩ := scanTo_spec a b 10 le_rfl
  intro j hj
  rw [← scanTo_ten, hnib j hj]
  split
  · exact signNibble_le_nine _
  · split
    · exact ha _ (by omega)
    · decide

/-- Each digit of the tens-complement exponent is a remainder mod 10 or its nines complement (rule R145). -/
theorem validReg_encodeExponent {c : Reg} (adj : Int) (hc : ValidReg c) : ValidReg (encodeExponent c adj) := by
  obtain ⟨hlow, hhigh⟩ := encodeExponent_spec c adj _ rfl
  intro j hj
  by_cases h : j < 3
  · rw [hlow j h]
    split
    · exact Nat.sub_le 9 _
    · exact Nat.le_of_lt_succ (Nat.mod_lt _ (by decide))
  · rw [hhigh j (by omega)]
    exact hc j hj

theorem eq_encodeExponent_of_canonVerdict_inRange {m : ExpMag} {a b c : Reg} (h : canonVerdict m a b = .inRange c) :
    c = encodeExponent (scan a b).c (adjustedExponent m a b) := by
  by_cases hover : 99 < adjustedExponent m a b
  · rw [canonVerdict_of_overflow hover] at h
    cases h
  · by_cases hunder : adjustedExponent m a b < -99
    · rw [canonVerdict_of_underflow hunder] at h
      cases h
    · rw [canonVerdict_of_inRange (by omega) (by omega)] at h
      exact (Verdict.inRange.inj h).symm

/-- CANON's result in range is valid when A is: B's nibbles only place the decimal point (rule R139). -/
theorem validReg_of_canonVerdict_inRange {m : ExpMag} {a b c : Reg} (ha : ValidReg a)
    (h : canonVerdict m a b = .inRange c) : ValidReg c := by
  rw [eq_encodeExponent_of_canonVerdict_inRange h]
  exact validReg_encodeExponent _ (validReg_scan b ha)

/-! ### Writes that leave each register valid or as it was -/

/-- From `s` to `t` each register got a valid value or is as it was. -/
def State.ValidOrKept (s t : State) : Prop := ∀ r : RegId, ValidReg (t.readReg r) ∨ t.readReg r = s.readReg r

theorem State.ValidOrKept.refl (s : State) : s.ValidOrKept s := fun _ => .inr rfl

theorem State.ValidOrKept.writeReg {s t : State} (h : s.ValidOrKept t) (r : RegId) {v : Reg} (hv : ValidReg v) :
    s.ValidOrKept (t.writeReg r v) := by
  intro q
  rw [writeReg_readReg]
  split
  · exact .inl hv
  · exact h q

theorem validOrKept_loadZero (s : State) : s.ValidOrKept s.loadZero :=
  ((State.ValidOrKept.refl s).writeReg .a validReg_zeroA).writeReg .b validReg_zeroB

theorem validOrKept_loadOverflow (s : State) (neg : Bool) : s.ValidOrKept (s.loadOverflow neg) :=
  ((State.ValidOrKept.refl s).writeReg .a (validReg_overflowA neg)).writeReg .b validReg_overflowB

theorem validOrKept_canonicalize {s : State} (ha : ValidReg (s.readReg .a)) : s.ValidOrKept s.canonicalize := by
  obtain ⟨c, hverdict, h⟩ | ⟨neg, -, h⟩ | ⟨-, h⟩ := canonicalize_cases s <;> rw [h]
  · exact (State.ValidOrKept.refl s).writeReg .c (validReg_of_canonVerdict_inRange ha hverdict)
  · exact (validOrKept_loadOverflow s neg).writeReg .c (validReg_overflowA neg)
  · exact (validOrKept_loadZero s).writeReg .c validReg_canonicalZero

/-- A SETN changes its own register alone, and one digit written into a valid value leaves it valid (rule R110). -/
theorem writeNibble_kept_or_target (s : State) (q r : RegId) {i : Nat} {d : Nibble} (hi : i < 14) (hd : d.toNat ≤ 9) :
    (s.writeNibble q i d).readReg r = s.readReg r ∨
    (r = q ∧ (ValidReg (s.readReg r) → ValidReg ((s.writeNibble q i d).readReg r))) := by
  by_cases hq : r = q
  · subst hq
    refine .inr ⟨rfl, fun hr => ?_⟩
    rw [writeNibble_readReg_self]
    exact validReg_setNib hr hi hd
  · exact .inl (writeNibble_readReg_of_ne s hq i d)

/-- What a command that ends can have done to the registers, A being valid. -/
theorem validOrKept_or_setn_of_exec {i : Instr} {s t : State} (ha : ValidReg (s.readReg .a)) (h : exec i s = .next t) :
    s.ValidOrKept t ∨
    ∃ q idx val, i = .setn q idx val ∧
      ∀ r, t.readReg r = s.readReg r ∨ (r = q ∧ (ValidReg (s.readReg r) → ValidReg (t.readReg r))) := by
  obtain ⟨e, rfl⟩ | ⟨-, rfl⟩ | ⟨neg, -, rfl⟩ | ⟨-, rfl⟩ | ⟨q, -, -, rfl⟩ | ⟨q, v, -, -, hv, rfl⟩ |
    ⟨q, idx, val, hi, -, hidx, hval, rfl⟩ | ⟨-, rfl⟩ := exec_cases s h
  · exact .inl (State.ValidOrKept.refl s)
  · exact .inl (validOrKept_canonicalize ha)
  · exact .inl ((validOrKept_loadOverflow s neg).writeReg .c (validReg_overflowA neg))
  · exact .inl ((validOrKept_loadZero s).writeReg .c validReg_canonicalZero)
  · exact .inl (State.ValidOrKept.refl s)
  · exact .inl ((State.ValidOrKept.refl s).writeReg q hv)
  · exact .inr ⟨q, idx, val, hi, fun r => writeNibble_kept_or_target s q r (by omega) hval⟩
  · exact .inl (validOrKept_loadZero s)

/-! ### The obligations -/

/-- Settles O39: a command writes a valid value, leaves the register as it was, or is a SETN, which keeps a valid register valid. -/
theorem commandsKeepRegistersValid : Obligations.CommandsKeepRegistersValid := by
  intro i s t r ⟨ha, _⟩ h
  by_cases hr : ValidReg (s.readReg r)
  · left
    obtain hkept | ⟨q, idx, val, -, hset⟩ := validOrKept_or_setn_of_exec ha h
    · exact (hkept r).elim id fun heq => heq ▸ hr
    · exact (hset r).elim (fun heq => heq ▸ hr) fun ⟨_, himp⟩ => himp hr
  · obtain hkept | ⟨q, idx, val, rfl, hset⟩ := validOrKept_or_setn_of_exec ha h
    · exact (hkept r).imp_right fun heq => ⟨hr, .inl heq⟩
    · exact .inr ⟨hr, (hset r).imp_right fun ⟨hq, _⟩ => ⟨idx, val, hq ▸ rfl⟩⟩

/-- A valid register is valid after every command (rule R10). -/
theorem validReg_of_exec {i : Instr} {s t : State} {r : RegId} (hs : s.Inv) (hr : ValidReg (s.readReg r))
    (h : exec i s = .next t) : ValidReg (t.readReg r) :=
  (commandsKeepRegistersValid i s t r hs h).resolve_right fun hbad => hbad.1 hr

theorem exec_keeps_inv {i : Instr} {s t : State} (hs : s.Inv) (h : exec i s = .next t) : t.Inv :=
  ⟨validReg_of_exec hs hs.1 h, validReg_of_exec hs hs.2 h⟩

/-- Settles O40: a step idles, ends a word that spells no command with an error, or runs the decoded command. -/
theorem everyStepKeepsTheInvariant : Obligations.EveryStepKeepsTheInvariant := by
  intro s t hs h
  cases hp : s.pending with
  | nil =>
    rw [step_of_idle s hp] at h
    cases h
    exact hs
  | cons x rest =>
    rw [step_of_pending s hp] at h
    cases hd : decode x with
    | error e =>
      rw [hd] at h
      cases h
      exact hs
    | ok i =>
      rw [hd] at h
      exact exec_keeps_inv (s := { s with pending := rest }) hs h

end Sys2Proof.Machine

/-!
PROOFS. The state of the block (spec/10_state.md): power-on, who may write which register and end its mark, and what no command reads, the
scratch registers (rule R26) and the last response (rule R28).
-/

namespace Sys2Proof.Machine

/-! ### Power-on and RD of a marked register -/

/-- Settles O2: each clause reads one field of the power-on state, register by register. -/
theorem powerOnTakesTheOpenParameter : Obligations.PowerOnTakesTheOpenParameter := by
  refine ⟨fun cfg c d e f m => ⟨fun r => ?_, rfl, rfl, rfl, rfl, rfl⟩, fun cfg r => ?_, fun r => ?_, fun r ha hb => ?_⟩
  · cases r <;> rfl
  · cases r <;> rfl
  · cases r <;> rfl
  · cases r with
    | a => exact absurd rfl ha
    | b => exact absurd rfl hb
    | c | d | e | f | m => rfl

/-- Settles O5: the mark is the first thing RD looks at. -/
theorem rdOfUnwrittenFaults : Obligations.RdOfUnwrittenFaults := fun _ s h => exec_rd_unwritten s h

/-! ### Whole writes of some registers -/

/-- The register and its mark are in `t` as they were in `s`. -/
def State.KeptAt (s t : State) (r : RegId) : Prop := t.readReg r = s.readReg r ∧ t.isUnwritten r = s.isUnwritten r

/-- Whatever changed from `s` to `t`, in a register or its mark, is the work of whole writes (rule R31) of the registers `rs`. -/
def State.OverwrittenIn (s t : State) (rs : List RegId) : Prop :=
  ∀ r, s.KeptAt t r ∨ (r ∈ rs ∧ t.isUnwritten r = false)

theorem State.OverwrittenIn.refl (s : State) (rs : List RegId) : s.OverwrittenIn s rs := fun _ => .inl ⟨rfl, rfl⟩

theorem State.OverwrittenIn.writeReg {s t : State} {rs : List RegId} (h : s.OverwrittenIn t rs) {r : RegId} (hr : r ∈ rs)
    (v : Reg) : s.OverwrittenIn (t.writeReg r v) rs := by
  intro q
  by_cases hq : q = r
  · subst hq
    exact .inr ⟨hr, writeReg_isUnwritten_self t q v⟩
  · rw [State.KeptAt, writeReg_readReg_of_ne t hq, writeReg_isUnwritten, if_neg hq]
    exact h q

theorem State.OverwrittenIn.readReg_of_not_mem {s t : State} {rs : List RegId} (h : s.OverwrittenIn t rs) {r : RegId}
    (hr : r ∉ rs) : t.readReg r = s.readReg r :=
  ((h r).resolve_right fun hmem => hr hmem.1).1

section
variable (s : State) {rs : List RegId} (ha : RegId.a ∈ rs) (hb : RegId.b ∈ rs)
include ha hb

theorem overwrittenIn_loadZero : s.OverwrittenIn s.loadZero rs := ((State.OverwrittenIn.refl s rs).writeReg ha _).writeReg hb _

theorem overwrittenIn_loadOverflow (neg : Bool) : s.OverwrittenIn (s.loadOverflow neg) rs :=
  ((State.OverwrittenIn.refl s rs).writeReg ha _).writeReg hb _

end

theorem overwrittenIn_loadZero_writeReg_c (s : State) (v : Reg) :
    s.OverwrittenIn (s.loadZero.writeReg .c v) [.a, .b, .c] :=
  (overwrittenIn_loadZero s (by decide) (by decide)).writeReg (by decide) v

theorem overwrittenIn_loadOverflow_writeReg_c (s : State) (neg : Bool) (v : Reg) :
    s.OverwrittenIn ((s.loadOverflow neg).writeReg .c v) [.a, .b, .c] :=
  (overwrittenIn_loadOverflow s (by decide) (by decide) neg).writeReg (by decide) v

theorem overwrittenIn_canonicalize (s : State) : s.OverwrittenIn s.canonicalize [.a, .b, .c] := by
  obtain ⟨c, -, h⟩ | ⟨neg, -, h⟩ | ⟨-, h⟩ := canonicalize_cases s <;> rw [h]
  · exact (State.OverwrittenIn.refl s _).writeReg (by decide) c
  · exact overwrittenIn_loadOverflow_writeReg_c s neg _
  · exact overwrittenIn_loadZero_writeReg_c s _

/-! ### Which registers a command may write -/

/-- The registers a command may write whole (rules R105, R112, R147, R171, R172); SETN writes one nibble. -/
def overwrites : Instr → List RegId
  | .canon | .ovf _ | .unf => [.a, .b, .c]
  | .reset                 => [.a, .b]
  | .wr r _                => [r]
  | .rd _ | .setn _ _ _    => []

theorem commands_of_mem_overwrites {i : Instr} {r : RegId} (h : r ∈ overwrites i) :
    (∃ v, i = .wr r v) ∨
    (r = .c ∧ (i = .canon ∨ (∃ neg, i = .ovf neg) ∨ i = .unf)) ∨
    ((r = .a ∨ r = .b) ∧ (i = .canon ∨ (∃ neg, i = .ovf neg) ∨ i = .unf ∨ i = .reset)) := by
  cases i with
  | canon | ovf neg | unf =>
    simp only [overwrites, List.mem_cons, List.not_mem_nil, or_false] at h
    obtain rfl | rfl | rfl := h <;> simp
  | reset =>
    simp only [overwrites, List.mem_cons, List.not_mem_nil, or_false] at h
    simp [h]
  | wr q v => exact .inl ⟨v, by rw [List.mem_singleton.mp h]⟩
  | rd q | setn q idx val => exact absurd h List.not_mem_nil

/-- What a command that ends can have done to a register and its mark. -/
theorem kept_or_overwritten_or_setn_of_exec {i : Instr} {s t : State} (h : exec i s = .next t) (r : RegId) :
    s.KeptAt t r ∨ (r ∈ overwrites i ∧ t.isUnwritten r = false) ∨
    ((∃ idx val, i = .setn r idx val) ∧ t.isUnwritten r = s.isUnwritten r) := by
  suffices hs : s.OverwrittenIn t (overwrites i) ∨
      ∃ q idx val, i = .setn q idx val ∧ t = (s.writeNibble q idx.toNat val).succeed 0 by
    obtain hover | ⟨q, idx, val, rfl, rfl⟩ := hs
    · exact (hover r).imp_right .inl
    · by_cases hq : r = q
      · exact .inr (.inr ⟨⟨idx, val, hq ▸ rfl⟩, rfl⟩)
      · exact .inl ⟨writeNibble_readReg_of_ne s hq _ _, rfl⟩
  obtain ⟨e, rfl⟩ | ⟨rfl, rfl⟩ | ⟨neg, rfl, rfl⟩ | ⟨rfl, rfl⟩ | ⟨q, rfl, -, rfl⟩ | ⟨q, v, rfl, -, -, rfl⟩ |
    ⟨q, idx, val, hi, -, -, -, ht⟩ | ⟨rfl, rfl⟩ := exec_cases s h
  · exact .inl (State.OverwrittenIn.refl s _)
  · exact .inl (overwrittenIn_canonicalize s)
  · exact .inl (overwrittenIn_loadOverflow_writeReg_c s neg _)
  · exact .inl (overwrittenIn_loadZero_writeReg_c s _)
  · exact .inl (State.OverwrittenIn.refl s _)
  · exact .inl ((State.OverwrittenIn.refl s _).writeReg (List.mem_singleton_self q) v)
  · exact .inr ⟨q, idx, val, hi, ht⟩
  · exact .inl (overwrittenIn_loadZero s (by decide) (by decide))

/-- A command that changed a register passed the check of WRITABLE_REGS: one that fails it changes none (rules R76(e), R205). -/
theorem wellFormed_of_exec_changes {i : Instr} {s t : State} {r : RegId} (h : exec i s = .next t)
    (hne : t.readReg r ≠ s.readReg r) : i.wellFormed s.cfg = true := by
  by_contra hw
  rw [exec_of_not_wellFormed s (Bool.eq_false_iff.mpr hw)] at h
  cases h
  exact hne rfl

/-- Settles O37: what changed was written whole or is the target of a SETN, and a WR or SETN that changed it was well formed. -/
theorem onlyItsWritersChangeARegister : Obligations.OnlyItsWritersChangeARegister := by
  intro i s t r h hne
  have hw := wellFormed_of_exec_changes h hne
  obtain ⟨hkept, -⟩ | ⟨hmem, -⟩ | ⟨⟨idx, val, rfl⟩, -⟩ := kept_or_overwritten_or_setn_of_exec h r
  · exact absurd hkept hne
  · obtain ⟨v, rfl⟩ | hload := commands_of_mem_overwrites hmem
    · exact .inl ⟨hw, .inl ⟨v, rfl⟩⟩
    · exact .inr hload
  · exact .inl ⟨hw, .inr ⟨idx, val, rfl⟩⟩

/-- Settles O38: a mark is as it was, or was ended by a whole write. -/
theorem marksEndOnlyAtWholeWrites : Obligations.MarksEndOnlyAtWholeWrites := by
  intro i s t r h
  obtain ⟨-, hmark⟩ | ⟨hmem, hend⟩ | ⟨-, hmark⟩ := kept_or_overwritten_or_setn_of_exec h r
  · exact ⟨hmark.trans, fun hs ht => absurd (hmark.symm.trans ht) (by simp [hs])⟩
  · exact ⟨fun _ => hend, fun _ _ => commands_of_mem_overwrites hmem⟩
  · exact ⟨hmark.trans, fun hs ht => absurd (hmark.symm.trans ht) (by simp [hs])⟩

/-! ### Parts of the state that canonicalization does not see -/

/-- A change of the state that canonicalization cannot tell: EXP_MAG_POSITIONS, A and B read the same (rule R131), and it does not matter
whether A, B and C are written before or after it. -/
structure CanonBlind (f : State → State) : Prop where
  expMag : ∀ s, (f s).cfg.expMag = s.cfg.expMag
  readReg_a : ∀ s, (f s).readReg .a = s.readReg .a
  readReg_b : ∀ s, (f s).readReg .b = s.readReg .b
  writeReg_a : ∀ s v, (f s).writeReg .a v = f (s.writeReg .a v)
  writeReg_b : ∀ s v, (f s).writeReg .b v = f (s.writeReg .b v)
  writeReg_c : ∀ s v, (f s).writeReg .c v = f (s.writeReg .c v)

namespace CanonBlind

variable {f : State → State} (hf : CanonBlind f) (s : State)
include hf

theorem loadZero : (f s).loadZero = f s.loadZero := by
  rw [State.loadZero, hf.writeReg_a, hf.writeReg_b, State.loadZero]

theorem loadOverflow (neg : Bool) : (f s).loadOverflow neg = f (s.loadOverflow neg) := by
  rw [State.loadOverflow, hf.writeReg_a, hf.writeReg_b, State.loadOverflow]

theorem canonicalize : (f s).canonicalize = f s.canonicalize := by
  have same : canonVerdict (f s).cfg.expMag ((f s).readReg .a) ((f s).readReg .b) =
      canonVerdict s.cfg.expMag (s.readReg .a) (s.readReg .b) := by
    rw [hf.expMag, hf.readReg_a, hf.readReg_b]
  obtain ⟨c, hv, h⟩ | ⟨neg, hv, h⟩ | ⟨hv, h⟩ := canonicalize_cases s
  · rw [h, canonicalize_of_inRange _ (same.trans hv), hf.writeReg_c]
  · rw [h, canonicalize_of_overflow _ (same.trans hv), hf.loadOverflow, hf.writeReg_c]
  · rw [h, canonicalize_of_underflow _ (same.trans hv), hf.loadZero, hf.writeReg_c]

end CanonBlind

/-! ### The scratch registers -/

theorem canonBlind_withScratch (d e f m : Reg) : CanonBlind fun s => s.withScratch d e f m where
  expMag _ := rfl
  readReg_a _ := rfl
  readReg_b _ := rfl
  writeReg_a _ _ := rfl
  writeReg_b _ _ := rfl
  writeReg_c _ _ := rfl

/-- The commands that name no register of their own end, write A, B and C at most, and do the same with other contents of the scratch
registers. -/
theorem exec_withScratch {i : Instr} (hi : i = .canon ∨ (∃ neg, i = .ovf neg) ∨ i = .unf ∨ i = .reset) (s : State)
    (d e f m : Reg) :
    ∃ t, exec i s = .next t ∧ s.OverwrittenIn t [.a, .b, .c] ∧
      exec i (s.withScratch d e f m) = .next (t.withScratch d e f m) := by
  have hblind := canonBlind_withScratch d e f m
  obtain rfl | ⟨neg, rfl⟩ | rfl | rfl := hi
  · refine ⟨_, exec_canon s, overwrittenIn_canonicalize s, ?_⟩
    rw [exec_canon, hblind.canonicalize]
    rfl
  · exact ⟨_, exec_ovf s neg, overwrittenIn_loadOverflow_writeReg_c s neg _, exec_ovf _ neg⟩
  · exact ⟨_, exec_unf s, overwrittenIn_loadZero_writeReg_c s _, exec_unf _⟩
  · exact ⟨_, exec_reset s, overwrittenIn_loadZero s (by decide) (by decide), exec_reset _⟩

/-- Settles O36: canonicalization does not see the scratch registers, and no command of the four overwrites one. -/
theorem scratchRegistersAreUntouched : Obligations.ScratchRegistersAreUntouched := by
  intro i s d e f m hi
  obtain ⟨t, ht, hover, hscratch⟩ := exec_withScratch hi s d e f m
  have kept : ∀ r ∉ [RegId.a, .b, .c], t.readReg r = s.readReg r := fun _ => hover.readReg_of_not_mem
  exact ⟨t, ht, kept .d (by decide), kept .e (by decide), kept .f (by decide), kept .m (by decide), hscratch⟩

/-! ### The last response -/

/-- The state with another last response. -/
def State.withResponse (s : State) (p : Option Response) : State := { s with response := p }

theorem canonBlind_withResponse (p : Option Response) : CanonBlind fun s => s.withResponse p where
  expMag _ := rfl
  readReg_a _ := rfl
  readReg_b _ := rfl
  writeReg_a _ _ := rfl
  writeReg_b _ _ := rfl
  writeReg_c _ _ := rfl

/-- Every way a command can end sets the response anew (rule R78). -/
theorem exec_withResponse (i : Instr) (s : State) (p : Option Response) : exec i (s.withResponse p) = exec i s := by
  cases i with
  | canon =>
    rw [exec_canon, exec_canon, (canonBlind_withResponse p).canonicalize]
    rfl
  | ovf neg =>
    rw [exec_ovf, exec_ovf]
    rfl
  | unf =>
    rw [exec_unf, exec_unf]
    rfl
  | rd r | wr r v | setn r idx val | reset => rfl

/-- Settles O44: the step's command, or its IllegalCommand, sets the response anew. -/
theorem responsesAreNeverRead : Obligations.ResponsesAreNeverRead := by
  intro s p hp
  obtain ⟨x, rest, hx⟩ := List.exists_cons_of_ne_nil hp
  rw [step_of_pending s hx, step_of_pending { s with response := p } hx]
  cases decode x with
  | error e => rfl
  | ok i => exact exec_withResponse i { s with pending := rest } p

end Sys2Proof.Machine

/-!
PROOFS. The order of commands (spec/20_memory.md, rule R57): a step runs the oldest command of the stream, and the commands behind it wait
in the stream unread.
-/

namespace Sys2Proof.Machine

/-- Settles O51: taking the oldest transaction and decoding it leaves the command's meaning. -/
theorem stepRunsTheDecodedCommand : Obligations.StepRunsTheDecodedCommand := by
  intro s t rest i hp hd
  rw [step_of_pending s hp, hd]

theorem canonBlind_issue (t : Transaction) : CanonBlind fun s => s.issue t where
  expMag _ := rfl
  readReg_a _ := rfl
  readReg_b _ := rfl
  writeReg_a _ _ := rfl
  writeReg_b _ _ := rfl
  writeReg_c _ _ := rfl

/-- A command reads the parameters and the registers alone, and writes registers, marks and the response alone: if it ends, it ends in the same
way with one more command waiting. -/
theorem exec_fault_or_next_issue (i : Instr) (s : State) (t : Transaction) :
    (∃ f, exec i s = .fault f) ∨ ∃ u, exec i s = .next u ∧ exec i (s.issue t) = .next (u.issue t) := by
  cases hw : i.wellFormed s.cfg with
  | false => exact .inr ⟨_, exec_of_not_wellFormed s hw, exec_of_not_wellFormed _ hw⟩
  | true =>
    cases i with
    | canon =>
      refine .inr ⟨_, exec_canon s, ?_⟩
      rw [exec_canon, (canonBlind_issue t).canonicalize]
      rfl
    | ovf neg => exact .inr ⟨_, exec_ovf s neg, exec_ovf _ neg⟩
    | unf => exact .inr ⟨_, exec_unf s, exec_unf _⟩
    | rd r =>
      cases hu : s.isUnwritten r with
      | true => exact .inl ⟨_, exec_rd_unwritten s hu⟩
      | false => exact .inr ⟨_, exec_rd s hu, exec_rd _ hu⟩
    | wr r v =>
      cases hv : firstBadNibble v with
      | some j => exact .inr ⟨_, exec_wr_bad s hw hv, exec_wr_bad _ hw hv⟩
      | none => exact .inr ⟨_, exec_wr s hw hv, exec_wr _ hw hv⟩
    | setn r idx val =>
      obtain hi | hi := Nat.lt_or_ge 13 idx.toNat
      · exact .inr ⟨_, exec_setn_index s hw hi, exec_setn_index _ hw hi⟩
      · obtain hv | hv := Nat.lt_or_ge 9 val.toNat
        · exact .inr ⟨_, exec_setn_value s hw hi hv, exec_setn_value _ hw hi hv⟩
        · exact .inr ⟨_, exec_setn s hw hi hv, exec_setn _ hw hi hv⟩
    | reset => exact .inr ⟨_, exec_reset s, exec_reset _⟩

theorem exec_issue {i : Instr} {s u : State} (t : Transaction) (h : exec i s = .next u) :
    exec i (s.issue t) = .next (u.issue t) := by
  obtain ⟨f, hf⟩ | ⟨v, hv, hissue⟩ := exec_fault_or_next_issue i s t
  · rw [hf] at h
    cases h
  · rw [hv] at h
    cases h
    exact hissue

/-- Settles O45: the oldest transaction is the same with one more behind, and neither its command nor its IllegalCommand looks at the
stream. -/
theorem laterCommandsWait : Obligations.LaterCommandsWait := by
  intro s u t hp h
  obtain ⟨x, rest, hx⟩ := List.exists_cons_of_ne_nil hp
  have hissued : (s.issue t).pending = x :: (rest ++ [t]) := congrArg (· ++ [t]) hx
  rw [step_of_pending s hx] at h
  rw [step_of_pending (s.issue t) hissued]
  cases hd : decode x with
  | error e =>
    rw [hd] at h
    cases h
    rfl
  | ok i =>
    rw [hd] at h
    exact exec_issue (s := { s with pending := rest }) t h

end Sys2Proof.Machine

/-!
PROOFS. The command words (spec/30_encoding.md): the fields and the word of a command as numbers (rule R71), decoding and encoding as inverses
of each other, and the words that end with IllegalCommand (rule R76).
-/

namespace Sys2Proof

open Machine

/-! ### The fields of a command word as numbers -/

theorem opField_toNat (cw : CmdWord) : (opField cw).toNat = cw.toNat / 4096 := by
  rw [opField, BitVec.extractLsb'_toNat, Nat.shiftRight_eq_div_pow]
  omega

theorem rsvField_toNat (cw : CmdWord) : (rsvField cw).toNat = cw.toNat / 2048 % 2 := by
  rw [rsvField, BitVec.extractLsb'_toNat, Nat.shiftRight_eq_div_pow]

theorem ridField_toNat (cw : CmdWord) : (ridField cw).toNat = cw.toNat / 256 % 8 := by
  rw [ridField, BitVec.extractLsb'_toNat, Nat.shiftRight_eq_div_pow]

theorem idxField_toNat (cw : CmdWord) : (idxField cw).toNat = cw.toNat / 16 % 16 := by
  rw [idxField, BitVec.extractLsb'_toNat, Nat.shiftRight_eq_div_pow]

theorem valField_toNat (cw : CmdWord) : (valField cw).toNat = cw.toNat % 16 := by
  rw [valField, BitVec.extractLsb'_toNat, Nat.shiftRight_zero]

theorem toNat_getLsbD_zero (cw : CmdWord) : (cw.getLsbD 0).toNat = cw.toNat % 2 := by
  rw [BitVec.getLsbD, Nat.testBit_zero]
  obtain h | h := Nat.mod_two_eq_zero_or_one cw.toNat <;> rw [h] <;> rfl

theorem opField_eq_zero {cw : CmdWord} : opField cw = 0 ↔ cw.toNat / 4096 = 0 := by
  rw [← opField_toNat, BitVec.toNat_eq]
  rfl

theorem rsvField_eq_zero {cw : CmdWord} : rsvField cw = 0 ↔ cw.toNat / 2048 % 2 = 0 := by
  rw [← rsvField_toNat, BitVec.toNat_eq]
  rfl

/-! ### Register identifiers -/

@[simp] theorem regOfRid_ridOf (r : RegId) : regOfRid (ridOf r) = some r := by cases r <;> rfl

theorem ridOf_of_regOfRid {rid : BitVec 3} {r : RegId} (h : regOfRid rid = some r) : ridOf r = rid := by
  revert rid
  cases r <;> decide

theorem eq_seven_of_regOfRid_eq_none {rid : BitVec 3} (h : regOfRid rid = none) : rid = 7 := by
  revert rid
  decide

theorem ridOf_injective {q r : RegId} (h : ridOf q = ridOf r) : q = r :=
  Option.some.inj (by rw [← regOfRid_ridOf, h, regOfRid_ridOf])

theorem ridOf_lt_seven (r : RegId) : (ridOf r).toNat < 7 := by cases r <;> decide

/-! ### The word of a command as a number -/

/-- The command word of a command, its fields added at their places (rule R71, the table of rule R79). -/
def wordNumber : Instr → Nat
  | .canon          => 0x1000
  | .ovf neg        => 0x2000 + neg.toNat
  | .unf            => 0x3000
  | .rd r           => 0x4000 + 256 * (ridOf r).toNat
  | .wr r _         => 0x5000 + 256 * (ridOf r).toNat
  | .setn r idx val => 0x6000 + 256 * (ridOf r).toNat + 16 * idx.toNat + val.toNat
  | .reset          => 0x7000

/-- SETN's fields do not overlap, so joining them by `|||` adds them. -/
theorem encodeWord_setn_toNat (r : RegId) (idx val : Nibble) :
    (encodeWord (.setn r idx val)).toNat = 0x6000 + 256 * (ridOf r).toNat + 16 * idx.toNat + val.toNat := by
  have hidx := idx.isLt
  have hval := val.isLt
  have hbase : (withRid 0x6000 r).toNat = (96 + (ridOf r).toNat) <<< 8 := by cases r <;> rfl
  have hidx16 : (idx.setWidth 16 <<< 4).toNat = idx.toNat <<< 4 := by
    rw [BitVec.toNat_shiftLeft, BitVec.toNat_setWidth, Nat.shiftLeft_eq, Nat.shiftLeft_eq]
    omega
  have hval16 : (val.setWidth 16).toNat = val.toNat := BitVec.toNat_setWidth_of_le (by decide)
  have hjoin : (96 + (ridOf r).toNat) <<< 8 + idx.toNat <<< 4 = (16 * (96 + (ridOf r).toNat) + idx.toNat) <<< 4 := by
    simp only [Nat.shiftLeft_eq]
    omega
  rw [encodeWord, BitVec.toNat_or, BitVec.toNat_or, hbase, hidx16, hval16,
    ← Nat.shiftLeft_add_eq_or_of_lt (by rw [Nat.shiftLeft_eq]; omega), hjoin, ← Nat.shiftLeft_add_eq_or_of_lt (by omega),
    Nat.shiftLeft_eq]
  omega

theorem encodeWord_toNat (i : Instr) : (encodeWord i).toNat = wordNumber i := by
  cases i with
  | canon | unf | reset => rfl
  | ovf neg => cases neg <;> rfl
  | rd r | wr r _ => cases r <;> rfl
  | setn r idx val => exact encodeWord_setn_toNat r idx val

/-! ### Decoding an encoded command -/

theorem decode_of_wr_opcode {t : Transaction} (hop : opField t.cw = 5) (hrsv : rsvField t.cw = 0) :
    decode t = ifZero (t.cw.extractLsb' 0 8) (withReg (ridField t.cw) fun r => .wr r t.wdata) := by
  simp [decode, hop, hrsv]

theorem decode_of_setn_opcode {t : Transaction} (hop : opField t.cw = 6) (hrsv : rsvField t.cw = 0) :
    decode t = withReg (ridField t.cw) fun r => .setn r (idxField t.cw) (valField t.cw) := by
  simp [decode, hop, hrsv]

theorem wr_fields (r : RegId) (wdata : Reg) :
    ridField (encodeWord (.wr r wdata)) = ridOf r ∧ (encodeWord (.wr r wdata)).extractLsb' 0 8 = 0 := by
  rw [encodeWord]
  cases r <;> decide

theorem setn_fields (r : RegId) (idx val : Nibble) :
    ridField (encodeWord (.setn r idx val)) = ridOf r ∧ idxField (encodeWord (.setn r idx val)) = idx ∧
      valField (encodeWord (.setn r idx val)) = val := by
  have hrid := ridOf_lt_seven r
  have hidx := idx.isLt
  have hval := val.isLt
  refine ⟨BitVec.eq_of_toNat_eq ?_, BitVec.eq_of_toNat_eq ?_, BitVec.eq_of_toNat_eq ?_⟩
  · rw [ridField_toNat, encodeWord_setn_toNat]
    omega
  · rw [idxField_toNat, encodeWord_setn_toNat]
    omega
  · rw [valField_toNat, encodeWord_setn_toNat]
    omega

/-- Settles O47: the words of the commands without WDATA, index and value are closed terms; WR's and SETN's fields are read back one by one. -/
theorem decodeOfEncodeIsTheCommand : Obligations.DecodeOfEncodeIsTheCommand := by
  intro i
  cases i with
  | canon | unf | reset => rfl
  | ovf neg => cases neg <;> rfl
  | rd r => cases r <;> rfl
  | wr r wdata =>
    obtain ⟨hop, hrsv, -⟩ := Laws.EncodedFields.wr r wdata
    obtain ⟨hrid, hunused⟩ := wr_fields r wdata
    rw [decode_of_wr_opcode hop hrsv, encode, hrid, hunused, ifZero, if_pos rfl, withReg, regOfRid_ridOf, encodeData]
  | setn r idx val =>
    obtain ⟨hop, hrsv, -⟩ := Laws.EncodedFields.setn r idx val
    obtain ⟨hrid, hidx, hval⟩ := setn_fields r idx val
    rw [decode_of_setn_opcode hop hrsv, encode, hrid, hidx, hval, withReg, regOfRid_ridOf]

/-! ### What the decoder answers -/

/-- The decoder's answer fits the transaction: a word it refuses is illegal for every setting of WRITABLE_REGS, and a command it gives is the
one the word encodes, with the transaction's WDATA if it is WR. -/
def Faithful (t : Transaction) : Except DecodeError Instr → Prop
  | .error _ => ∀ cfg, IllegalWord cfg t.cw
  | .ok i    => encodeWord i = t.cw ∧ ∀ r v, i = .wr r v → v = t.wdata

section
variable {t : Transaction}

theorem faithful_ok {i : Instr} (hcw : wordNumber i = t.cw.toNat) (hwr : ∀ r v, i = .wr r v → v = t.wdata) :
    Faithful t (.ok i) :=
  ⟨BitVec.eq_of_toNat_eq ((encodeWord_toNat i).trans hcw), hwr⟩

theorem faithful_ifZero {k n : Nat} {d : Except DecodeError Instr}
    (hbad : t.cw.toNat / 2 ^ k % 2 ^ n ≠ 0 → ∀ cfg, IllegalWord cfg t.cw)
    (hzero : t.cw.toNat / 2 ^ k % 2 ^ n = 0 → Faithful t d) : Faithful t (ifZero (t.cw.extractLsb' k n) d) := by
  rw [← Nat.shiftRight_eq_div_pow, ← BitVec.extractLsb'_toNat] at hbad hzero
  unfold ifZero
  split
  · next h => exact hzero (by rw [h]; rfl)
  · next h => exact hbad fun h0 => h (BitVec.eq_of_toNat_eq h0)

theorem faithful_withReg {k : RegId → Instr} (hbad : t.cw.toNat / 256 % 8 = 7 → ∀ cfg, IllegalWord cfg t.cw)
    (hreg : ∀ r, (ridOf r).toNat = t.cw.toNat / 256 % 8 → Faithful t (.ok (k r))) :
    Faithful t (withReg (ridField t.cw) k) := by
  rw [← ridField_toNat] at hbad hreg
  unfold withReg
  split
  · next r h => exact hreg r (congrArg _ (ridOf_of_regOfRid h))
  · next h => exact hbad (congrArg _ (eq_seven_of_regOfRid_eq_none h))

end

/-- The decoder's checks one by one (rule R82): each refuses words of one clause of rule R76, and a word that passes them is spelled out by its
fields. -/
theorem decode_faithful (t : Transaction) : Faithful t (decode t) := by
  have hop := opField_toNat t.cw
  unfold decode
  simp only [opField_eq_zero, rsvField_eq_zero, ne_eq]
  split
  · intro cfg
    simp only [IllegalWord]
    omega
  split
  · intro cfg
    simp only [IllegalWord]
    omega
  split
  case h_1 | h_3 | h_7 =>
    refine faithful_ifZero (fun _ cfg => ?_) fun _ => faithful_ok ?_ (by simp)
    · simp only [IllegalWord]
      omega
    · simp only [wordNumber]
      omega
  case h_2 =>
    refine faithful_ifZero (fun _ cfg => ?_) fun _ => faithful_ok ?_ (by simp)
    · simp only [IllegalWord]
      omega
    · rw [wordNumber, toNat_getLsbD_zero]
      omega
  case h_4 | h_5 =>
    refine faithful_ifZero (fun _ cfg => ?_) fun _ => faithful_withReg (fun _ cfg => ?_) fun r _ => faithful_ok ?_ (by simp)
    · simp only [IllegalWord]
      omega
    · simp only [IllegalWord]
      omega
    · simp only [wordNumber]
      omega
  case h_6 =>
    refine faithful_withReg (fun _ cfg => ?_) fun r _ => faithful_ok ?_ (by simp)
    · simp only [IllegalWord]
      omega
    · rw [wordNumber, idxField_toNat, valField_toNat]
      omega
  case h_8 h1 h2 h3 h4 h5 h6 h7 =>
    simp only [imp_false] at h1 h2 h3 h4 h5 h6 h7
    omega

/-- Settles O48: the decoder gives a word only the command it encodes. -/
theorem encodeOfDecodeIsTheWord : Obligations.EncodeOfDecodeIsTheWord := by
  intro t i h
  have hfaithful := decode_faithful t
  rw [h] at hfaithful
  exact hfaithful

/-- Settles O50: each word is a closed term. -/
theorem sampleWordsDecode : Obligations.SampleWordsDecode := by
  unfold Obligations.SampleWordsDecode
  decide

/-! ### Illegal words -/

theorem exists_ridOf_eq_and_iff (r : RegId) (p : RegId → Prop) : (∃ q, (ridOf q).toNat = (ridOf r).toNat ∧ p q) ↔ p r :=
  ⟨fun ⟨_, hq, hp⟩ => ridOf_injective (BitVec.eq_of_toNat_eq hq) ▸ hp, fun hp => ⟨r, rfl, hp⟩⟩

/-- The word of a command that names a register: every clause of rule R76 but (e) fails. -/
theorem illegalWord_of_register_fields (cfg : Config) {cw : CmdWord} {op : Nat} {r : RegId}
    (hop : op = 4 ∨ op = 5 ∨ op = 6) (hcw : cw.toNat / 2048 = 2 * op) (hrid : cw.toNat / 256 % 8 = (ridOf r).toNat)
    (hunused : op = 6 ∨ cw.toNat % 256 = 0) :
    IllegalWord cfg cw ↔ op ≠ 4 ∧ cfg.writable r = false := by
  have hseven := ridOf_lt_seven r
  have hdiv : cw.toNat / 4096 = op := by omega
  simp only [IllegalWord, hrid, exists_ridOf_eq_and_iff, hdiv]
  by_cases hw : cfg.writable r = false
  · simp only [hw, and_true]
    omega
  · simp only [hw, reduceCtorEq, and_false, or_false, iff_false]
    omega

/-- An encoded command's word is illegal exactly when the command writes outside WRITABLE_REGS (rule R76(e)). -/
theorem illegalWord_encodeWord (cfg : Config) (i : Instr) : IllegalWord cfg (encodeWord i) ↔ i.wellFormed cfg = false := by
  have hword := encodeWord_toNat i
  cases i with
  | canon | unf | reset => simp [IllegalWord, hword, wordNumber, Instr.wellFormed]
  | ovf neg => cases neg <;> simp [IllegalWord, hword, wordNumber, Instr.wellFormed]
  | rd r =>
    have hrid := ridOf_lt_seven r
    rw [wordNumber] at hword
    rw [illegalWord_of_register_fields cfg (op := 4) (r := r) (by decide) (by omega) (by omega) (by omega)]
    simp [Instr.wellFormed]
  | wr r wdata =>
    have hrid := ridOf_lt_seven r
    rw [wordNumber] at hword
    rw [illegalWord_of_register_fields cfg (op := 5) (r := r) (by decide) (by omega) (by omega) (by omega)]
    simp [Instr.wellFormed]
  | setn r idx val =>
    have hrid := ridOf_lt_seven r
    have hidx := idx.isLt
    have hval := val.isLt
    rw [wordNumber] at hword
    rw [illegalWord_of_register_fields cfg (op := 6) (r := r) (by decide) (by omega) (by omega) (by omega)]
    simp [Instr.wellFormed]

end Sys2Proof

namespace Sys2Proof.Machine

/-! ### STATUS and RDATA of a command -/

variable (s : State)

/-- Every command but RD ends with RDATA 0 (rule R78), and with IllegalCommand exactly when it writes outside WRITABLE_REGS (rules R76(e),
R206). -/
theorem exec_response_of_not_rd {i : Instr} (hi : ∀ r, i ≠ .rd r) :
    ∃ t status, exec i s = .next t ∧ t.response = some { status := status, rdata := 0 } ∧
      (status = .illegalCommand ↔ i.wellFormed s.cfg = false) := by
  cases hw : i.wellFormed s.cfg with
  | false => exact ⟨_, _, exec_of_not_wellFormed s hw, rfl, iff_of_true rfl rfl⟩
  | true =>
    cases i with
    | canon => exact ⟨_, _, exec_canon s, rfl, iff_of_false nofun nofun⟩
    | ovf neg => exact ⟨_, _, exec_ovf s neg, rfl, iff_of_false nofun nofun⟩
    | unf => exact ⟨_, _, exec_unf s, rfl, iff_of_false nofun nofun⟩
    | rd r => exact absurd rfl (hi r)
    | wr r v =>
      cases hv : firstBadNibble v with
      | some j => exact ⟨_, _, exec_wr_bad s hw hv, rfl, iff_of_false nofun nofun⟩
      | none => exact ⟨_, _, exec_wr s hw hv, rfl, iff_of_false nofun nofun⟩
    | setn r idx val =>
      obtain hidx | hidx := Nat.lt_or_ge 13 idx.toNat
      · exact ⟨_, _, exec_setn_index s hw hidx, rfl, iff_of_false nofun nofun⟩
      · obtain hval | hval := Nat.lt_or_ge 9 val.toNat
        · exact ⟨_, _, exec_setn_value s hw hidx hval, rfl, iff_of_false nofun nofun⟩
        · exact ⟨_, _, exec_setn s hw hidx hval, rfl, iff_of_false nofun nofun⟩
    | reset => exact ⟨_, _, exec_reset s, rfl, iff_of_false nofun nofun⟩

/-- Settles O43: the RDATA half of what every command but RD answers. -/
theorem rdataIsZeroUnlessRead : Obligations.RdataIsZeroUnlessRead := by
  intro i s hi
  obtain ⟨t, status, ht, hresponse, -⟩ := exec_response_of_not_rd s hi
  exact ⟨t, status, ht, hresponse⟩

/-- Settles O12: the check of WRITABLE_REGS is the first thing a write does, and failing changes the response alone. -/
theorem unwritableTargetIsIllegal : Obligations.UnwritableTargetIsIllegal :=
  fun _ s hw => ⟨_, exec_of_not_wellFormed s hw, rfl, rfl, rfl, fun _ _ => ⟨rfl, rfl⟩⟩

/-- The outcome is a next state whose response is IllegalCommand with RDATA 0. -/
def EndsIllegal (o : Host.Outcome State Fault Refusal) : Prop :=
  ∃ u, o = .next u ∧ u.response = some { status := .illegalCommand, rdata := 0 }

theorem endsIllegal_next {u : State} {status : Status} {rdata : Reg} (hu : u.response = some { status, rdata }) :
    EndsIllegal (.next u) ↔ status = .illegalCommand ∧ rdata = 0 := by
  constructor
  · rintro ⟨_, ⟨⟩, h⟩
    rw [hu] at h
    cases h
    exact ⟨rfl, rfl⟩
  · rintro ⟨rfl, rfl⟩
    exact ⟨u, rfl, hu⟩

theorem exec_endsIllegal_iff (i : Instr) : EndsIllegal (exec i s) ↔ i.wellFormed s.cfg = false := by
  by_cases hrd : ∃ r, i = .rd r
  · obtain ⟨r, rfl⟩ := hrd
    suffices h : ¬ EndsIllegal (exec (.rd r) s) by simp [h, Instr.wellFormed]
    cases hu : s.isUnwritten r with
    | true =>
      rw [exec_rd_unwritten s hu]
      rintro ⟨_, h, -⟩
      cases h
    | false =>
      rw [exec_rd s hu, endsIllegal_next (succeed_response s _)]
      simp
  · obtain ⟨t, status, ht, hresponse, hillegal⟩ := exec_response_of_not_rd s (not_exists.mp hrd)
    rw [ht, endsIllegal_next hresponse, ← hillegal]
    exact and_iff_left rfl

/-- Settles O49: a refused word ends so and is on the list; a command's word is on the list as the command ends, by its write target. -/
theorem illegalWordsAreExactlyTheListed : Obligations.IllegalWordsAreExactlyTheListed := by
  intro s t rest hp
  change _ ↔ EndsIllegal (step s)
  have hfaithful := decode_faithful t
  rw [step_of_pending s hp]
  cases hd : decode t with
  | error e =>
    rw [hd] at hfaithful
    exact ⟨fun _ => ⟨_, rfl, rfl⟩, fun _ => hfaithful s.cfg⟩
  | ok i =>
    rw [hd] at hfaithful
    rw [← hfaithful.1, illegalWord_encodeWord]
    exact (exec_endsIllegal_iff { s with pending := rest } i).symm

/-- Settles O53: the placed transaction is the oldest one, and taking it gives the state back. -/
theorem placedWordRunsNext : Obligations.PlacedWordRunsNext := by
  intro s nbits w i h
  have hd : decode (tableTransaction nbits w) = .ok i := by
    unfold decodeTableWord at h
    cases hd : decode (tableTransaction nbits w) with
    | error e => rw [hd] at h; cases h
    | ok j => rw [hd] at h; exact congrArg _ (Option.some.inj h)
  exact stepRunsTheDecodedCommand _ _ _ _ (withFetchWord_pending s nbits w) hd

end Sys2Proof.Machine

/-!
PROOFS. The host's side of the encoding (spec/30_encoding.md): ENTER's three commands (rule R80), and the assembler reading back what it
spells (rule R79).
-/

namespace Sys2Proof.Machine

/-! ### ENTER -/

theorem digitOf_le_nine {ch : Char} {d : Nibble} (h : digitOf ch = some d) : d.toNat ≤ 9 := by
  unfold digitOf at h
  split at h
  · cases h
    rw [BitVec.toNat_ofNat]
    omega
  · cases h

theorem validReg_of_constructFrom {k : Nat} {v w : Reg} {t : Text} (hv : ValidReg v) (h : constructFrom k v t = .ok w) :
    ValidReg w := by
  induction t generalizing k v with
  | nil =>
    cases h
    exact hv
  | cons ch rest ih =>
    rw [constructFrom] at h
    cases hd : digitOf ch with
    | none =>
      rw [hd] at h
      cases h
    | some d =>
      rw [hd] at h
      exact ih (validReg_setNib hv (by omega) (digitOf_le_nine hd)) h

/-- A register value that was constructed from a text is valid (rules R10, R102). -/
theorem validReg_of_construct {t : Text} {v : Reg} (h : construct t = .ok v) : ValidReg v := by
  unfold construct at h
  split at h
  · cases h
  · exact validReg_of_constructFrom (by decide) h

theorem step_of_pending_encode {s : State} {i : Instr} {rest : List Transaction} (h : s.pending = encode i :: rest) :
    step s = exec i { s with pending := rest } :=
  stepRunsTheDecodedCommand s _ rest i h (decodeOfEncodeIsTheCommand i)

theorem step_wr_of_construct {s : State} {r : RegId} {v : Reg} {t : Text} {rest : List Transaction}
    (h : s.pending = encode (.wr r v) :: rest) (hw : s.cfg.writable r = true) (hv : construct t = .ok v) :
    step s = .next ((({ s with pending := rest } : State).writeReg r v).succeed 0) := by
  rw [step_of_pending_encode h]
  exact exec_wr _ hw (firstBadNibble_eq_none.mpr (validReg_of_construct hv))

theorem issueLine_enter {s : State} {ta tb : Text} {a b : Reg} (hs : s.pending = []) (ha : construct ta = .ok a)
    (hb : construct tb = .ok b) :
    s.issueLine (.enter ta tb) = { s with pending := [encode (.wr .a a), encode (.wr .b b), encode .canon] } := by
  simp only [State.issueLine, assemble, assembleWr, ha, hb]
  simp [State.issue, hs, Except.map, Except.toOption]

theorem run_succ_of_step {s t : State} (k : Nat) (h : step s = .next t) : core.run (k + 1) s = core.run k t := by
  simp only [Host.Core.run, core, h]

/-- Settles O56: the two WRs write A and B and take their place off the stream, and CANON does not read their responses. -/
theorem enterWritesAThenBThenCanonicalizes : Obligations.EnterWritesAThenBThenCanonicalizes := by
  intro s ta tb a b hs ha hb
  rw [issueLine_enter hs ha hb, run_succ_of_step 2 (step_wr_of_construct rfl rfl ha),
    run_succ_of_step 1 (step_wr_of_construct rfl rfl hb),
    run_succ_of_step 0 ((step_of_pending_encode rfl).trans (exec_canon _))]
  have hempty : ({ s with pending := [] } : State) = s := by rw [← hs]
  calc Host.Outcome.next _
    _ = exec .canon (((({ s with pending := [] } : State).writeReg .a a).writeReg .b b).withResponse
          (some { status := .ok, rdata := 0 })) := rfl
    _ = exec .canon ((s.writeReg .a a).writeReg .b b) := by rw [exec_withResponse, hempty]

/-! ### Taking a text apart -/

@[simp] theorem after_append (p t : Text) : after p (p ++ t) = some t := by
  induction p with
  | nil => rfl
  | cons x p ih => rw [List.cons_append, after, if_pos rfl, ih]

section
variable {t : Text} {x : Char} (h : x ∉ t)
include h

theorem decide_ne_of_mem : ∀ y ∈ t, decide (y ≠ x) = true := fun _ hy => decide_eq_true (ne_of_mem_of_not_mem hy h)

theorem takeWhile_ne_append_cons (rest : Text) : (t ++ x :: rest).takeWhile (· ≠ x) = t := by
  rw [List.takeWhile_append_of_pos (decide_ne_of_mem h), List.takeWhile_cons_of_neg (by simp), List.append_nil]

theorem dropWhile_ne_append_cons (rest : Text) : (t ++ x :: rest).dropWhile (· ≠ x) = x :: rest := by
  rw [List.dropWhile_append_of_pos (decide_ne_of_mem h), List.dropWhile_cons_of_neg (by simp)]

end

theorem takeQuoted_spellQuoted_append {t : Text} (h : quoteMark ∉ t) (rest : Text) :
    takeQuoted (spellQuoted t ++ rest) = some (t, rest) := by
  have hopen : spellQuoted t ++ rest = [quoteMark] ++ (t ++ quoteMark :: rest) := by simp [spellQuoted]
  rw [takeQuoted, hopen, after_append]
  simp only [takeWhile_ne_append_cons h, dropWhile_ne_append_cons h]

theorem takeQuoted_spellQuoted {t : Text} (h : quoteMark ∉ t) : takeQuoted (spellQuoted t) = some (t, []) := by
  rw [← List.append_nil (spellQuoted t), takeQuoted_spellQuoted_append h]

theorem regOfLetter_letterOf (r : RegId) : regOfLetter (letterOf r) = some r := by cases r <;> rfl

theorem takeRegister_letterOf (r : RegId) (rest : Text) : takeRegister (letterOf r :: (separator ++ rest)) = some (r, rest) := by
  rw [takeRegister, regOfLetter_letterOf, after_append]
  rfl

theorem parseNumber_spellNumber (d : Nibble) : parseNumber (spellNumber d) = some d := by
  revert d
  decide

theorem comma_not_mem_spellNumber (d : Nibble) : ',' ∉ spellNumber d := by
  revert d
  decide

/-! ### The parsers of the lines with operands

Each `parseLine` lemma says which of the last four alternatives a mnemonic leaves open. -/

theorem parseLine_wr (t : Text) : parseLine ("WR ".toList ++ t) = parseWr t := by
  change (none <|> parseWr t <|> none <|> none) = parseWr t
  simp

theorem parseLine_setn (t : Text) : parseLine ("SETN ".toList ++ t) = parseSetn t := by
  change (none <|> none <|> parseSetn t <|> none) = parseSetn t
  simp

theorem parseLine_enter (t : Text) : parseLine ("ENTER ".toList ++ t) = parseEnter t := by
  change (none <|> none <|> none <|> parseEnter t) = parseEnter t
  simp

theorem parseWr_spelling (r : RegId) {t : Text} (h : quoteMark ∉ t) :
    parseWr (letterOf r :: separator ++ spellQuoted t) = some (.wr r t) := by
  rw [parseWr, List.cons_append, takeRegister_letterOf]
  simp only [takeQuoted_spellQuoted h]

/-- The index ends at the first comma, which its spelling does not hold. -/
theorem parseSetn_spelling (r : RegId) (idx val : Nibble) :
    parseSetn (letterOf r :: separator ++ spellNumber idx ++ separator ++ spellNumber val) = some (.setn r idx val) := by
  have hcomma : spellNumber idx ++ (separator ++ spellNumber val) = spellNumber idx ++ ',' :: (' ' :: spellNumber val) := rfl
  have hopen : after separator (',' :: ' ' :: spellNumber val) = some (spellNumber val) := after_append separator _
  rw [parseSetn, List.append_assoc, List.append_assoc, List.cons_append, takeRegister_letterOf]
  simp only [hcomma, takeWhile_ne_append_cons (comma_not_mem_spellNumber idx),
    dropWhile_ne_append_cons (comma_not_mem_spellNumber idx), hopen]
  simp [parseNumber_spellNumber]

theorem parseEnter_spelling {a b : Text} (ha : quoteMark ∉ a) (hb : quoteMark ∉ b) :
    parseEnter (spellQuoted a ++ separator ++ spellQuoted b) = some (.enter a b) := by
  rw [parseEnter, List.append_assoc, takeQuoted_spellQuoted_append ha]
  simp [takeQuoted_spellQuoted hb]

/-- Settles O57: a line without operands and RD are one of finitely many texts; the others are read by the parser of their mnemonic. -/
theorem assemblerReadsItsSpelling : Obligations.AssemblerReadsItsSpelling := by
  intro l hwr henter
  cases l with
  | canon | unf | reset => rfl
  | ovf neg => cases neg <;> rfl
  | rd r => cases r <;> rfl
  | wr r text => exact (parseLine_wr _).trans (parseWr_spelling r (hwr r text rfl))
  | setn r idx val => exact (parseLine_setn _).trans (parseSetn_spelling r idx val)
  | enter a b =>
    obtain ⟨ha, hb⟩ := henter a b rfl
    exact (parseLine_enter _).trans (parseEnter_spelling ha hb)

end Sys2Proof.Machine

/-!
PROOFS. Register access (spec/40_register_access.md): RD, WR, SETN and RESET, each with what it leaves alone.
-/

namespace Sys2Proof.Machine

/-! ### How a command ended, and what it left alone -/

section
variable (s : State)

/-- Whatever raises an error changes the response alone (rule R205). -/
theorem endsWith_fail (e : CmdError) : EndsWith s (s.fail e) e.status 0 [] := ⟨rfl, rfl, rfl, fun _ _ => ⟨rfl, rfl⟩⟩

variable {s}

/-- A command that writes registers whole and succeeds leaves the other registers and their marks alone. -/
theorem State.OverwrittenIn.endsWith_succeed {t : State} {rs : List RegId} (h : s.OverwrittenIn t rs) (hcfg : t.cfg = s.cfg)
    (hpending : t.pending = s.pending) (v : Reg) : EndsWith s (t.succeed v) .ok v rs :=
  ⟨rfl, hcfg, hpending, fun r hr => (h r).resolve_right fun hmem => hr hmem.1⟩

variable (s)

theorem endsWith_writeReg_succeed (r : RegId) (v : Reg) : EndsWith s ((s.writeReg r v).succeed 0) .ok 0 [r] :=
  ((State.OverwrittenIn.refl s [r]).writeReg (List.mem_singleton_self r) v).endsWith_succeed rfl rfl 0

theorem endsWith_loadZero_succeed : EndsWith s (s.loadZero.succeed 0) .ok 0 [.a, .b] :=
  (overwrittenIn_loadZero s (by decide) (by decide)).endsWith_succeed rfl rfl 0

/-- A SETN is no whole write, so its own register keeps the mark too (rule R31). -/
theorem endsWith_writeNibble_succeed (r : RegId) (i : Nat) (d : Nibble) :
    EndsWith s ((s.writeNibble r i d).succeed 0) .ok 0 [r] :=
  ⟨rfl, rfl, rfl, fun _ hq => ⟨writeNibble_readReg_of_ne s (List.ne_of_not_mem_cons hq) i d, rfl⟩⟩

end

/-! ### The obligations -/

/-- Settles O4: RD of a written register changes the response alone. -/
theorem rdAnswersTheRegister : Obligations.RdAnswersTheRegister := fun _ s h => exec_rd s h

/-- Settles O6: a valid value passes the digit check and is written whole. -/
theorem wrWritesTheRegister : Obligations.WrWritesTheRegister := fun r v s hw hv =>
  ⟨_, exec_wr s hw (firstBadNibble_eq_none.mpr hv), writeReg_readReg_self s r v,
    List.forall_mem_singleton.mpr (writeReg_isUnwritten_self s r v), endsWith_writeReg_succeed s r v⟩

/-- Settles O7: a value that is not valid has a nibble that the digit check finds. -/
theorem wrRefusesNonDigits : Obligations.WrRefusesNonDigits := by
  intro r v s hw hv
  obtain ⟨i, hi⟩ := Option.ne_none_iff_exists'.mp (mt firstBadNibble_eq_none.mp hv)
  exact ⟨_, exec_wr_bad s hw hi, endsWith_fail s _⟩

/-- Settles O9: one nibble write, read at its own index and at the others. -/
theorem setnSetsOneNibble : Obligations.SetnSetsOneNibble := by
  intro r idx val s hw hidx hval
  have hlt : idx.toNat < 14 := by omega
  refine ⟨_, exec_setn s hw hidx hval, ?_, fun j _ hj => ?_, rfl, endsWith_writeNibble_succeed s r _ _⟩ <;>
    rw [succeed_readReg, writeNibble_readReg_self]
  · exact nib_setNib_self _ _ _ hlt
  · exact nib_setNib_of_ne _ _ hlt hj

/-- Settles O10: the index is checked before the value. -/
theorem setnIndexRangeComesFirst : Obligations.SetnIndexRangeComesFirst :=
  fun _ _ _ s hw hidx => ⟨_, exec_setn_index s hw hidx, endsWith_fail s _⟩

/-- Settles O11: with the index in range the value is checked. -/
theorem setnRefusesNonDigits : Obligations.SetnRefusesNonDigits :=
  fun _ _ _ s hw hidx hval => ⟨_, exec_setn_value s hw hidx hval, endsWith_fail s _⟩

/-- Settles O13: RESET is the two whole writes of the power-on pattern, and no CANON. -/
theorem resetRestoresThePattern : Obligations.ResetRestoresThePattern := fun s =>
  ⟨_, exec_reset s, loadZero_readReg_a s, loadZero_readReg_b s, by simp [Written], endsWith_loadZero_succeed s⟩

end Sys2Proof.Machine

/-!
PROOFS. The text form of a register (spec/40_register_access.md, rules R100 to R104): what construction takes, and the round trip with
rendering.
-/

namespace Sys2Proof.Machine

/-! ### Decimal digits as characters -/

/-- A decimal digit as rule R100 has it. -/
abbrev IsDecimal (ch : Char) : Prop := '0' ≤ ch ∧ ch ≤ '9'

theorem isDecimal_iff_toNat (ch : Char) : IsDecimal ch ↔ 48 ≤ ch.toNat ∧ ch.toNat ≤ 57 := Iff.rfl

theorem digitOf_eq_none {ch : Char} (h : ¬ IsDecimal ch) : digitOf ch = none :=
  if_neg (mt (isDecimal_iff_toNat ch).mpr h)

theorem exists_digitOf_eq_some {ch : Char} (h : IsDecimal ch) : ∃ d, digitOf ch = some d :=
  ⟨_, if_pos ((isDecimal_iff_toNat ch).mp h)⟩

theorem toNat_of_digitOf {ch : Char} {d : Nibble} (h : digitOf ch = some d) : ch.toNat = 48 + d.toNat := by
  unfold digitOf at h
  split at h
  · cases h
    rw [BitVec.toNat_ofNat]
    omega
  · cases h

theorem hexChar_of_digitOf {ch : Char} {d : Nibble} (h : digitOf ch = some d) : hexChar d = ch := by
  rw [hexChar, if_pos (digitOf_le_nine h), ← toNat_of_digitOf h, Char.ofNat_toNat]

theorem isDecimal_hexChar {d : Nibble} (h : d.toNat ≤ 9) : IsDecimal (hexChar d) := by
  revert d
  decide

theorem digitOf_hexChar {d : Nibble} (h : d.toNat ≤ 9) : digitOf (hexChar d) = some d := by
  revert d
  decide

/-! ### What construction does with a text -/

/-- The characters of `t` are the digits of `v` at the text positions `ks` (rule R102). -/
def SpellsAt (v : Reg) (t : Text) (ks : List Nat) : Prop :=
  List.Forall₂ (fun ch k => digitOf ch = some (nib v (13 - k))) t ks

theorem constructFrom_cons {ch : Char} {d : Nibble} (h : digitOf ch = some d) (k : Nat) (v : Reg) (rest : Text) :
    constructFrom k v (ch :: rest) = constructFrom (k + 1) (setNib v (13 - k) d) rest := by
  simp only [constructFrom, h]

theorem constructFrom_cons_bad {ch : Char} (h : digitOf ch = none) (k : Nat) (v : Reg) (rest : Text) :
    constructFrom k v (ch :: rest) = .error (.character k) := by
  simp only [constructFrom, h]

/-- The decimal digits of a text go into the nibbles from `13 - k` down, and the nibbles above stay. -/
theorem exists_constructFrom_eq_ok {t : Text} (ht : ∀ ch ∈ t, IsDecimal ch) {k : Nat} (hk : k + t.length ≤ 14) (v : Reg) :
    ∃ w, constructFrom k v t = .ok w ∧ SpellsAt w t (List.range' k t.length) ∧
      ∀ i, 13 < i + k → nib w i = nib v i := by
  induction t generalizing k v with
  | nil => exact ⟨v, rfl, .nil, fun _ _ => rfl⟩
  | cons ch rest ih =>
    obtain ⟨hch, hrest⟩ := List.forall_mem_cons.mp ht
    obtain ⟨d, hd⟩ := exists_digitOf_eq_some hch
    rw [List.length_cons] at hk
    obtain ⟨w, hw, hspells, habove⟩ := ih hrest (k := k + 1) (by omega) (setNib v (13 - k) d)
    refine ⟨w, (constructFrom_cons hd ..).trans hw, .cons ?_ hspells, fun i hi => ?_⟩
    · rw [hd, habove _ (by omega), nib_setNib_self _ _ _ (by omega)]
    · rw [habove i (by omega), nib_setNib_of_ne _ _ (by omega) (by omega)]

theorem exists_construct_eq_ok {t : Text} (hlen : t.length = 14) (ht : ∀ ch ∈ t, IsDecimal ch) :
    ∃ v, construct t = .ok v ∧ SpellsAt v t (List.range 14) := by
  obtain ⟨v, hv, hspells, -⟩ := exists_constructFrom_eq_ok ht (k := 0) (by omega) 0
  rw [hlen, ← List.range_eq_range'] at hspells
  exact ⟨v, by rw [construct, if_neg (not_not_intro hlen), hv], hspells⟩

/-- Construction stops at the first character that is no decimal digit. -/
theorem constructFrom_eq_error {pre : Text} (hpre : ∀ ch ∈ pre, IsDecimal ch) {ch : Char} (hch : ¬ IsDecimal ch) (rest : Text)
    (k : Nat) (v : Reg) : constructFrom k v (pre ++ ch :: rest) = .error (.character (k + pre.length)) := by
  induction pre generalizing k v with
  | nil => exact constructFrom_cons_bad (digitOf_eq_none hch) k v rest
  | cons x pre ih =>
    obtain ⟨hx, hpre⟩ := List.forall_mem_cons.mp hpre
    obtain ⟨d, hd⟩ := exists_digitOf_eq_some hx
    rw [List.cons_append, constructFrom_cons hd, ih hpre, List.length_cons, Nat.add_right_comm, Nat.add_assoc]

/-! ### Texts and registers that agree -/

theorem SpellsAt.toNat_getD {v : Reg} {t : Text} (h : SpellsAt v t (List.range 14)) {k : Nat} (hk : k < 14) :
    (t.getD k ' ').toNat = 48 + (nib v (13 - k)).toNat := by
  have hlen : t.length = 14 := h.length_eq
  have hdigit := h.get (hlen ▸ hk) (by simpa using hk)
  simp only [List.get_eq_getElem, List.getElem_range] at hdigit
  rw [List.getD_eq_getElem _ _ (hlen ▸ hk), toNat_of_digitOf hdigit]

theorem SpellsAt.render_eq {v : Reg} {t : Text} (h : SpellsAt v t (List.range 14)) : render v = t := by
  have hchars : List.Forall₂ (fun ch k => ch = hexChar (nib v (13 - k))) t (List.range 14) :=
    h.imp fun _ _ hd => (hexChar_of_digitOf hd).symm
  exact (List.forall₂_eq_eq_eq ▸ List.forall₂_map_right_iff.mpr hchars : t = render v).symm

/-- Rendering tells valid registers from all others. -/
theorem SpellsAt.eq_of_render {v w : Reg} (hv : ValidReg v) (h : SpellsAt w (render v) (List.range 14)) : w = v := by
  have hnib := List.forall₂_same.mp (List.forall₂_map_left_iff.mp h)
  refine reg_ext fun j hj => ?_
  have hj' := hnib (13 - j) (List.mem_range.mpr (by omega))
  rw [Nat.sub_sub_self (by omega), digitOf_hexChar (hv j hj)] at hj'
  exact (Option.some.inj hj').symm

theorem isDecimal_of_mem_render {v : Reg} (hv : ValidReg v) : ∀ ch ∈ render v, IsDecimal ch :=
  List.forall_mem_map.mpr fun k _ => isDecimal_hexChar (hv (13 - k) (by omega))

theorem forall_mem_take_of_getD {P : Char → Prop} {t : Text} {k : Nat} {dflt : Char} (h : ∀ j < k, P (t.getD j dflt)) :
    ∀ ch ∈ t.take k, P ch := by
  intro ch hch
  obtain ⟨j, hj, rfl⟩ := List.mem_take_iff_getElem.mp hch
  rw [← List.getD_eq_getElem t dflt]
  exact h j (by omega)

/-! ### The obligations -/

/-- Settles O54: decimal digits construct what they spell, and the first character that is none splits the text. -/
theorem constructTakesExactlyDigitTexts : Obligations.ConstructTakesExactlyDigitTexts := by
  intro t
  refine ⟨fun hlen => if_pos hlen, fun hlen ht => ?_, fun hlen k hk hpre hch => ?_⟩
  · have hdecimal := forall_mem_take_of_getD (P := IsDecimal) ht
    rw [← hlen, List.take_length] at hdecimal
    obtain ⟨v, hv, hspells⟩ := exists_construct_eq_ok hlen hdecimal
    refine ⟨v, hv, fun k hk => ?_⟩
    rw [hspells.toNat_getD hk]
    exact (Nat.add_sub_cancel_left 48 _).symm
  · have hsplit : t = t.take k ++ t.getD k ' ' :: t.drop (k + 1) := by
      rw [List.getD_eq_getElem _ _ (hlen ▸ hk), ← List.drop_eq_getElem_cons, List.take_append_drop]
    rw [construct, if_neg (not_not_intro hlen), hsplit,
      constructFrom_eq_error (forall_mem_take_of_getD hpre) hch, List.length_take_of_le (by omega), Nat.zero_add]

/-- Settles O55: what a text constructs renders as it, and what a rendered text constructs has the register's digits. -/
theorem textRoundTrip : Obligations.TextRoundTrip := by
  refine ⟨fun t hlen ht => ?_, fun v hv => ?_⟩
  · obtain ⟨v, hv, hspells⟩ := exists_construct_eq_ok hlen ht
    exact ⟨v, hv, hspells.render_eq⟩
  · obtain ⟨w, hw, hspells⟩ := exists_construct_eq_ok (t := render v) (by simp [render]) (isDecimal_of_mem_render hv)
    rwa [hspells.eq_of_render hv] at hw

end Sys2Proof.Machine

/-!
PROOFS. Canonicalization (spec/41_canonicalize.md): the closed forms of the scan and of the exponents, the canonical form they give to C,
and what a CANON leaves behind, in range or not.
-/

namespace Sys2Proof.Machine

/-! ### The closed forms, by the indices of the leading digit and of the decimal point -/

theorem closedDbd_eq (a b : Reg) : closedDbd a b = (leadIndex a : Int) - pointIndex b + 1 := by
  unfold closedDbd leadIndex
  cases firstDigit a with
  | none => simp only [Option.getD_none]; omega
  | some f => rfl

theorem closedDigit_eq (a : Reg) (j : Nat) :
    closedDigit a j = if j + 3 ≤ leadIndex a then nib a (leadIndex a - j) else 0 := by
  unfold closedDigit leadIndex
  cases firstDigit a with
  | none => simp
  | some f => rfl

theorem scan_dbd (a b : Reg) : (scan a b).dbd = closedDbd a b := by
  obtain ⟨hlead, -, -, -⟩ := leadIndex_spec a
  obtain ⟨hpoint, -, -, -⟩ := pointIndex_spec b
  obtain ⟨-, -, -, hdbd, -⟩ := scanTo_spec a b 10 le_rfl
  rw [← scanTo_ten, hdbd, closedDbd_eq]
  omega

theorem nib_scan_sign (a b : Reg) : nib (scan a b).c 13 = signNibble (mantissaNegative a) := by
  obtain ⟨-, -, -, -, hnib⟩ := scanTo_spec a b 10 le_rfl
  rw [← scanTo_ten, hnib 13 (by decide), if_pos rfl]

theorem nib_scan_mantissa (a b : Reg) {j : Nat} (hj : j < 10) : nib (scan a b).c (12 - j) = closedDigit a j := by
  obtain ⟨-, hlead, -, -⟩ := leadIndex_spec a
  obtain ⟨-, -, -, -, hnib⟩ := scanTo_spec a b 10 le_rfl
  rw [← scanTo_ten, hnib _ (by omega), if_neg (by omega), closedDigit_eq]
  by_cases h : j + 3 ≤ leadIndex a
  · rw [if_pos h, if_pos (by omega)]
    congr 1
    omega
  · rw [if_neg h, if_neg (by omega)]

/-- Settles O14: the state of the scan after its ten steps, read at the count and at the mantissa. -/
theorem scanHasItsClosedForm : Obligations.ScanHasItsClosedForm :=
  fun a b => ⟨scan_dbd a b, fun _ hj => nib_scan_mantissa a b hj⟩

/-- Settles O29: the decimal-point flag, all that a step takes from B, is a comparison with the index of the first marker. -/
theorem onlyTheFirstMarkerMatters : Obligations.OnlyTheFirstMarkerMatters := by
  intro a b b' hpoint
  suffices ∀ k ≤ 10, scanTo a b k = scanTo a b' k from this 10 le_rfl
  intro k hk
  induction k with
  | zero => rfl
  | succ k ih =>
    obtain ⟨-, hflag, -⟩ := scanTo_spec a b k (by omega)
    obtain ⟨-, hflag', -⟩ := scanTo_spec a b' k (by omega)
    have same : ((scanTo a b k).foundDecimal || isMarker (nib b (13 - k))) =
        ((scanTo a b' k).foundDecimal || isMarker (nib b' (13 - k))) := by
      rw [hflag, hflag', point_flag b (by omega), point_flag b' (by omega), hpoint]
    rw [scanTo_succ, scanTo_succ, scanStep, scanStep, same, ih (by omega)]

/-! ### The entered and the adjusted exponent -/

theorem enteredExponent_eq_closedExponent (m : ExpMag) (a : Reg) : enteredExponent m a = closedExponent m a := by
  cases m <;> simp [enteredExponent, closedExponent, exponentNegative, exponentMagnitude, add_assoc]

theorem adjustedExponent_eq_closedAdj (m : ExpMag) (a b : Reg) : adjustedExponent m a b = closedAdj m a b := by
  rw [adjustedExponent, closedAdj, enteredExponent_eq_closedExponent, scan_dbd]

theorem closedAdj_eq (m : ExpMag) (a b : Reg) :
    closedAdj m a b = closedExponent m a + leadIndex a - pointIndex b := by
  rw [closedAdj, closedDbd_eq]
  omega

/-- The count's range (rule R149(a)). -/
theorem closedDbd_bounds (a b : Reg) : -10 ≤ closedDbd a b ∧ closedDbd a b ≤ 10 := by
  obtain ⟨hlead, hlead', -, -⟩ := leadIndex_spec a
  obtain ⟨hpoint, hpoint', -, -⟩ := pointIndex_spec b
  rw [closedDbd_eq]
  omega

theorem leadIndex_eq_twelve_iff (a : Reg) : leadIndex a = 12 ↔ nib a 12 ≠ 0 := by
  obtain ⟨-, hle, hlead, hzero⟩ := leadIndex_spec a
  constructor
  · intro h
    rw [← h]
    exact hlead (by omega)
  · intro h
    by_contra hne
    exact h (hzero 12 (by omega) le_rfl)

theorem pointIndex_eq_three_iff (b : Reg) : pointIndex b = 3 ↔ ∀ i, 4 ≤ i → i ≤ 13 → nib b i ≠ 2 := by
  obtain ⟨hge, hle, hpoint, habove⟩ := pointIndex_spec b
  constructor
  · intro h i hi
    exact habove i (by omega)
  · intro h
    by_contra hne
    exact h _ (by omega) hle (hpoint (by omega))

/-- Where the count is largest (rule R149(a)). -/
theorem closedDbd_eq_ten_iff (a b : Reg) :
    closedDbd a b = 10 ↔ nib a 12 ≠ 0 ∧ ∀ i, 4 ≤ i → i ≤ 13 → nib b i ≠ 2 := by
  obtain ⟨-, hlead, -, -⟩ := leadIndex_spec a
  obtain ⟨hpoint, -, -, -⟩ := pointIndex_spec b
  rw [← leadIndex_eq_twelve_iff, ← pointIndex_eq_three_iff, closedDbd_eq]
  omega

theorem closedExponent_two_bounds {a : Reg} (ha : ValidReg a) :
    -99 ≤ closedExponent .two a ∧ closedExponent .two a ≤ 99 := by
  have h0 := ha 0 (by decide)
  have h1 := ha 1 (by decide)
  simp only [closedExponent, if_true]
  split <;> omega

/-- A negative entered exponent takes its 9 into the hundreds of the magnitude (rule R141). -/
theorem closedExponent_three_le_of_negative {a : Reg} (h : nib a 2 = 9) : closedExponent .three a ≤ -900 := by
  have h2 : (nib a 2).toNat = 9 := by rw [h]; rfl
  simp only [closedExponent, reduceCtorEq, if_false, if_pos h]
  omega

theorem closedExponent_three_bounds {a : Reg} (ha : ValidReg a) :
    (-999 ≤ closedExponent .three a ∧ closedExponent .three a ≤ -900) ∨
    (0 ≤ closedExponent .three a ∧ closedExponent .three a ≤ 899) := by
  have h0 := ha 0 (by decide)
  have h1 := ha 1 (by decide)
  have h2 := ha 2 (by decide)
  by_cases h : nib a 2 = 9
  · refine .inl ⟨?_, closedExponent_three_le_of_negative h⟩
    simp only [closedExponent, reduceCtorEq, if_false, if_pos h]
    omega
  · have hne : (nib a 2).toNat ≠ 9 := fun heq => h (BitVec.eq_of_toNat_eq heq)
    simp only [closedExponent, reduceCtorEq, if_false, if_neg h]
    omega

theorem closedExponent_of_zero_hundreds {a : Reg} (h : nib a 2 = 0) (m m' : ExpMag) :
    closedExponent m a = closedExponent m' a := by
  cases m <;> cases m' <;> simp [closedExponent, h]

/-- Settles O22: the indices of the leading digit and of the point bound the count, and three digits the entered exponent. -/
theorem intermediateIntegersAreBounded : Obligations.IntermediateIntegersAreBounded := by
  intro a b ha
  obtain ⟨hdbd, hdbd'⟩ := closedDbd_bounds a b
  obtain ⟨htwo, htwo'⟩ := closedExponent_two_bounds ha
  have hthree := closedExponent_three_bounds ha
  simp only [scan_dbd, enteredExponent_eq_closedExponent, adjustedExponent_eq_closedAdj, closedAdj]
  refine ⟨hdbd, hdbd', closedDbd_eq_ten_iff a b, htwo, htwo', ?_, ?_, hthree, ?_, ?_⟩ <;> omega

/-! ### The exponent field -/

/-- Outside the exponent nibbles the encoding keeps the register (rule R145). -/
theorem nib_encodeExponent_of_ge (c : Reg) (adj : Int) {j : Nat} (hj : 3 ≤ j) :
    nib (encodeExponent c adj) j = nib c j := by
  obtain ⟨-, hhigh⟩ := encodeExponent_spec c adj _ rfl
  exact hhigh j hj

/-- The digits of the encoding are those of `adj'`, of which a negative exponent takes the nines complement (rule R145). -/
theorem encodeExponent_digit (c : Reg) {adj mag : Int} (hmag : mag = if adj < 0 then -(adj + 1) else adj) {p : Nat}
    (hp : p < 3) :
    ((nib (encodeExponent c adj) p).toNat : Int) = if adj < 0 then 9 - mag / 10 ^ p % 10 else mag / 10 ^ p % 10 := by
  obtain ⟨n, rfl⟩ : ∃ n : Nat, mag = n := Int.eq_ofNat_of_zero_le (by rw [hmag]; split <;> omega)
  obtain ⟨hlow, -⟩ := encodeExponent_spec c adj n (by rw [← hmag]; rfl)
  have hdigit : n / 10 ^ p % 10 ≤ 9 := Nat.le_of_lt_succ (Nat.mod_lt _ (by decide))
  rw [hlow p hp]
  split
  · rw [Nat.cast_sub hdigit]
    norm_cast
  · norm_cast

theorem encodeExponent_digit_le_nine (c : Reg) (adj : Int) {p : Nat} (hp : p < 3) :
    (nib (encodeExponent c adj) p).toNat ≤ 9 := by
  obtain ⟨hlow, -⟩ := encodeExponent_spec c adj _ rfl
  rw [hlow p hp]
  split <;> omega

section
variable (c : Reg) {adj : Int} (hlow : -99 ≤ adj) (hhigh : adj ≤ 99)
include hlow hhigh

/-- The hundreds nibble is the exponent's sign (rule R145). -/
theorem nib_encodeExponent_two : nib (encodeExponent c adj) 2 = if adj < 0 then 9 else 0 := by
  have hdigit := encodeExponent_digit c rfl (p := 2) (by decide) (adj := adj)
  apply BitVec.eq_of_toNat_eq
  split_ifs at hdigit ⊢ with h
  · change _ = 9
    omega
  · change _ = 0
    omega

theorem exponentField_encodeExponent : (exponentField (encodeExponent c adj) : Int) = adj % 1000 := by
  have h0 := encodeExponent_digit c rfl (p := 0) (by decide) (adj := adj)
  have h1 := encodeExponent_digit c rfl (p := 1) (by decide) (adj := adj)
  have h2 := encodeExponent_digit c rfl (p := 2) (by decide) (adj := adj)
  simp only [exponentField, Nat.cast_add, Nat.cast_mul, h0, h1, h2]
  split_ifs <;> omega

theorem decodedExponent_encodeExponent : decodedExponent (encodeExponent c adj) = adj := by
  rw [decodedExponent, exponentField_encodeExponent c hlow hhigh, nib_encodeExponent_two c hlow hhigh]
  by_cases h : adj < 0
  · rw [if_pos h, if_pos rfl]
    omega
  · rw [if_neg h, if_neg (by decide)]
    omega

end

/-- Settles O15: the three digits by the formula of rule R145, put together. -/
theorem exponentFieldIsTensComplement : Obligations.ExponentFieldIsTensComplement :=
  fun c adj hlow hhigh =>
    ⟨exponentField_encodeExponent c hlow hhigh, fun _ hp => encodeExponent_digit_le_nine c adj hp,
      decodedExponent_encodeExponent c hlow hhigh, fun _ hj _ => nib_encodeExponent_of_ge c adj hj⟩

/-! ### What CANON leaves -/

/-- The state that a verdict of the range check leads to (rules R147, R174). -/
def Verdict.apply (s : State) : Verdict → State
  | .inRange c => s.writeReg .c c
  | .overflow neg => (s.loadOverflow neg).writeReg .c (overflowA neg)
  | .underflow => s.loadZero.writeReg .c canonicalZero

theorem canonicalize_eq_apply (s : State) :
    s.canonicalize = (canonVerdict s.cfg.expMag (s.readReg .a) (s.readReg .b)).apply s := by
  obtain ⟨c, hv, h⟩ | ⟨neg, hv, h⟩ | ⟨hv, h⟩ := canonicalize_cases s <;> rw [h, hv] <;> rfl

/-- A verdict's effect ends in a write of the C that a CANON of what it leaves would write (rules R174, R176). -/
theorem canonicalize_eq_writeReg_inRange (s : State) :
    ∃ (u : State) (c : Reg), s.canonicalize = u.writeReg .c c ∧
      canonVerdict u.cfg.expMag (u.readReg .a) (u.readReg .b) = .inRange c := by
  obtain ⟨c, hv, h⟩ | ⟨neg, -, h⟩ | ⟨-, h⟩ := canonicalize_cases s
  · exact ⟨s, c, h, hv⟩
  · exact ⟨s.loadOverflow neg, _, h, canonVerdict_overflow_sentinel s.cfg.expMag neg⟩
  · exact ⟨s.loadZero, _, h, canonVerdict_zero s.cfg.expMag⟩

/-- The C of an entry in range: the significant digits with the encoded adjusted exponent (rules R138, R145). -/
def canonicalForm (m : ExpMag) (a b : Reg) : Reg := encodeExponent (scan a b).c (closedAdj m a b)

section
variable (s : State)

theorem exec_canon_of_inRange (hlow : -99 ≤ closedAdj s.cfg.expMag (s.readReg .a) (s.readReg .b))
    (hhigh : closedAdj s.cfg.expMag (s.readReg .a) (s.readReg .b) ≤ 99) :
    exec .canon s =
      .next ((s.writeReg .c (canonicalForm s.cfg.expMag (s.readReg .a) (s.readReg .b))).succeed 0) := by
  rw [← adjustedExponent_eq_closedAdj] at hlow hhigh
  rw [exec_canon, canonicalize_of_inRange s (canonVerdict_of_inRange hlow hhigh), canonicalForm,
    adjustedExponent_eq_closedAdj]

theorem exec_canon_of_overflow (h : 99 < closedAdj s.cfg.expMag (s.readReg .a) (s.readReg .b)) :
    exec .canon s = exec (.ovf (mantissaNegative (s.readReg .a))) s := by
  rw [← adjustedExponent_eq_closedAdj] at h
  rw [exec_canon, exec_ovf, canonicalize_of_overflow s (canonVerdict_of_overflow h)]

theorem exec_canon_of_underflow (h : closedAdj s.cfg.expMag (s.readReg .a) (s.readReg .b) < -99) :
    exec .canon s = exec .unf s := by
  rw [← adjustedExponent_eq_closedAdj] at h
  rw [exec_canon, exec_unf, canonicalize_of_underflow s (canonVerdict_of_underflow h)]

/-- Everything CANON can do, by the adjusted exponent (rules R143, R147, R174). -/
theorem exec_canon_cases :
    (99 < closedAdj s.cfg.expMag (s.readReg .a) (s.readReg .b) ∧
      exec .canon s = .next (((s.loadOverflow (mantissaNegative (s.readReg .a))).writeReg .c
        (overflowA (mantissaNegative (s.readReg .a)))).succeed 0)) ∨
    (closedAdj s.cfg.expMag (s.readReg .a) (s.readReg .b) < -99 ∧
      exec .canon s = .next ((s.loadZero.writeReg .c canonicalZero).succeed 0)) ∨
    (-99 ≤ closedAdj s.cfg.expMag (s.readReg .a) (s.readReg .b) ∧
      closedAdj s.cfg.expMag (s.readReg .a) (s.readReg .b) ≤ 99 ∧
      exec .canon s =
        .next ((s.writeReg .c (canonicalForm s.cfg.expMag (s.readReg .a) (s.readReg .b))).succeed 0)) := by
  by_cases hover : 99 < closedAdj s.cfg.expMag (s.readReg .a) (s.readReg .b)
  · exact .inl ⟨hover, (exec_canon_of_overflow s hover).trans (exec_ovf s _)⟩
  · by_cases hunder : closedAdj s.cfg.expMag (s.readReg .a) (s.readReg .b) < -99
    · exact .inr (.inl ⟨hunder, (exec_canon_of_underflow s hunder).trans (exec_unf s)⟩)
    · exact .inr (.inr ⟨by omega, by omega, exec_canon_of_inRange s (by omega) (by omega)⟩)

end

/-! ### The nibbles of the canonical form -/

theorem signNibble_mantissaNegative (a : Reg) :
    signNibble (mantissaNegative a) = if nib a 13 = 9 then 9 else 0 := by
  simp [signNibble, mantissaNegative]

theorem nib_canonicalZero_sign : nib canonicalZero 13 = 0 := by decide

theorem nib_overflowA_sign (neg : Bool) : nib (overflowA neg) 13 = signNibble neg := by cases neg <;> decide

section
variable (m : ExpMag) (a b : Reg)

theorem nib_canonicalForm_sign : nib (canonicalForm m a b) 13 = signNibble (mantissaNegative a) := by
  rw [canonicalForm, nib_encodeExponent_of_ge _ _ (by decide), nib_scan_sign]

theorem nib_canonicalForm_mantissa {j : Nat} (hj : j < 10) : nib (canonicalForm m a b) (12 - j) = closedDigit a j := by
  rw [canonicalForm, nib_encodeExponent_of_ge _ _ (by omega), nib_scan_mantissa a b hj]

/-- The mantissa starts with a significant digit or is all zero (rule R151(c)). -/
theorem canonicalForm_normalized :
    nib (canonicalForm m a b) 12 ≠ 0 ∨ ∀ j, 3 ≤ j → j ≤ 12 → nib (canonicalForm m a b) j = 0 := by
  obtain ⟨-, -, hlead, -⟩ := leadIndex_spec a
  have hdigit (j : Nat) := nib_canonicalForm_mantissa m a b (j := j)
  simp only [closedDigit_eq] at hdigit
  by_cases h : 3 ≤ leadIndex a
  · left
    rw [hdigit 0 (by decide), if_pos (by omega)]
    exact hlead h
  · right
    intro j hj hj'
    have := hdigit (12 - j) (by omega)
    rwa [if_neg (by omega), Nat.sub_sub_self hj'] at this

end

/-- Settles O16: the closed form of the scan with that of the exponent field, in the one register that is written. -/
theorem canonDerivesTheCanonicalForm : Obligations.CanonDerivesTheCanonicalForm := by
  intro s hlow hhigh
  refine ⟨_, exec_canon_of_inRange s hlow hhigh, ?_⟩
  rw [succeed_readReg, writeReg_readReg_self, ← signNibble_mantissaNegative]
  exact ⟨nib_canonicalForm_sign _ _ _, fun _ hj => nib_canonicalForm_mantissa _ _ _ hj,
    exponentField_encodeExponent _ hlow hhigh, fun _ hp => encodeExponent_digit_le_nine _ _ hp,
    by simp [Written], endsWith_writeReg_succeed s .c _⟩

/-- Settles O20: the scan's working register and the overflow sentinel are made with A's sign, the power-on zero without. -/
theorem mantissaSignIsCarried : Obligations.MantissaSignIsCarried := by
  intro s
  simp only [adjustedExponent_eq_closedAdj, ← signNibble_mantissaNegative]
  obtain ⟨hover, h⟩ | ⟨hunder, h⟩ | ⟨hlow, hhigh, h⟩ := exec_canon_cases s
  · exact ⟨_, h, fun _ => nib_overflowA_sign _, fun _ => nib_overflowA_sign _, fun hlt => by omega⟩
  · exact ⟨_, h, fun hge => by omega, fun hgt => by omega, fun _ => ⟨nib_zero 13, nib_canonicalZero_sign⟩⟩
  · exact ⟨_, h, fun _ => nib_canonicalForm_sign _ _ _, fun hgt => by omega, fun hlt => by omega⟩

/-- Settles O21: the digits of the encoded exponent stand in C as they were encoded. -/
theorem exponentDigitsAreReencoded : Obligations.ExponentDigitsAreReencoded := by
  intro s adj mag hadj hlow hhigh hmag
  rw [adjustedExponent_eq_closedAdj] at hadj
  subst hadj
  exact ⟨_, exec_canon_of_inRange s hlow hhigh, fun _ hp => encodeExponent_digit _ hmag hp,
    nib_encodeExponent_two _ hlow hhigh⟩

/-! ### Canonical form (rule R151) -/

/-- A register in canonical form: the signs are 0 or 9, the mantissa starts with a digit that is not 0 or is all zero, and every nibble
is a digit. -/
abbrev IsCanonical (c : Reg) : Prop :=
  (nib c 13 = 0 ∨ nib c 13 = 9) ∧
  (nib c 2 = 0 ∨ nib c 2 = 9) ∧
  (nib c 12 ≠ 0 ∨ ∀ j, 3 ≤ j → j ≤ 12 → nib c j = 0) ∧
  ValidReg c

theorem isCanonical_overflowA (neg : Bool) : IsCanonical (overflowA neg) := by cases neg <;> decide

theorem isCanonical_canonicalZero : IsCanonical canonicalZero := by decide

theorem isCanonical_canonicalForm {m : ExpMag} {a b : Reg} (ha : ValidReg a) (hlow : -99 ≤ closedAdj m a b)
    (hhigh : closedAdj m a b ≤ 99) : IsCanonical (canonicalForm m a b) := by
  refine ⟨?_, ?_, canonicalForm_normalized m a b, validReg_encodeExponent _ (validReg_scan b ha)⟩
  · rw [nib_canonicalForm_sign, signNibble_mantissaNegative]
    exact (ite_eq_or_eq _ _ _).symm
  · rw [canonicalForm, nib_encodeExponent_two _ hlow hhigh]
    exact (ite_eq_or_eq _ _ _).symm

/-- Settles O23: the canonical form of an entry in range, and the two sentinels, are in canonical form. -/
theorem canonLeavesCanonicalForm : Obligations.CanonLeavesCanonicalForm := by
  intro s ⟨ha, _⟩
  obtain ⟨-, h⟩ | ⟨-, h⟩ | ⟨hlow, hhigh, h⟩ := exec_canon_cases s
  · exact ⟨_, h, isCanonical_overflowA _⟩
  · exact ⟨_, h, isCanonical_canonicalZero⟩
  · exact ⟨_, h, isCanonical_canonicalForm ha hlow hhigh⟩

/-! ### Entries that differ in the sign nibble (rule R153) -/

section
variable {a a' : Reg} (h : ∀ j < 13, nib a' j = nib a j)
include h

theorem firstDigit_congr : firstDigit a' = firstDigit a := by
  refine List.find?_congr fun i hi => ?_
  rw [h i (by simp at hi; omega)]

theorem leadIndex_congr : leadIndex a' = leadIndex a := by rw [leadIndex, firstDigit_congr h, leadIndex]

theorem closedDigit_congr (j : Nat) : closedDigit a' j = closedDigit a j := by
  obtain ⟨-, hlead, -, -⟩ := leadIndex_spec a
  rw [closedDigit_eq, closedDigit_eq, leadIndex_congr h]
  split
  · exact h _ (by omega)
  · rfl

theorem closedAdj_congr (m : ExpMag) (b : Reg) : closedAdj m a' b = closedAdj m a b := by
  have hexp : closedExponent m a' = closedExponent m a := by
    rw [closedExponent, closedExponent, h 0 (by decide), h 1 (by decide), h 2 (by decide)]
  rw [closedAdj_eq, closedAdj_eq, hexp, leadIndex_congr h]

/-- The exponent nibbles depend on the adjusted exponent alone, the mantissa on the digits of A (rules R138, R145). -/
theorem nib_canonicalForm_congr (m : ExpMag) (b : Reg) {j : Nat} (hj : j < 13) :
    nib (canonicalForm m a' b) j = nib (canonicalForm m a b) j := by
  by_cases hlow : j < 3
  · obtain ⟨hdigit, -⟩ := encodeExponent_spec (scan a b).c (closedAdj m a b) _ rfl
    obtain ⟨hdigit', -⟩ := encodeExponent_spec (scan a' b).c (closedAdj m a b) _ rfl
    apply BitVec.eq_of_toNat_eq
    rw [canonicalForm, canonicalForm, closedAdj_congr h, hdigit j hlow, hdigit' j hlow]
  · have hmantissa := nib_canonicalForm_mantissa m a b (j := 12 - j) (by omega)
    have hmantissa' := nib_canonicalForm_mantissa m a' b (j := 12 - j) (by omega)
    rw [Nat.sub_sub_self (by omega)] at hmantissa hmantissa'
    rw [hmantissa, hmantissa', closedDigit_congr h]

end

theorem nib_overflowA_congr (neg neg' : Bool) : ∀ j < 13, nib (overflowA neg) j = nib (overflowA neg') j := by
  cases neg <;> cases neg' <;> decide

/-- Settles O24: both entries get the same verdict, and the sign stands in nibble 13 alone of what C gets. -/
theorem signIsIsolated : Obligations.SignIsIsolated := by
  intro s u hexp hb hpos hneg hA
  have hadj : closedAdj u.cfg.expMag (u.readReg .a) (u.readReg .b) =
      closedAdj s.cfg.expMag (s.readReg .a) (s.readReg .b) := by
    rw [hexp, hb, closedAdj_congr hA]
  have hsign : signNibble (mantissaNegative (s.readReg .a)) = 0 := by
    rw [signNibble_mantissaNegative, hpos]
    decide
  have hsign' : signNibble (mantissaNegative (u.readReg .a)) = 9 := by rw [signNibble_mantissaNegative, if_pos hneg]
  obtain ⟨hover, h⟩ | ⟨hunder, h⟩ | ⟨hlow, hhigh, h⟩ := exec_canon_cases s
  · refine ⟨_, _, h, (exec_canon_of_overflow u (by omega)).trans (exec_ovf u _), nib_overflowA_congr _ _,
      (nib_overflowA_sign _).trans hsign, ?_⟩
    rw [if_neg (by omega)]
    exact (nib_overflowA_sign _).trans hsign'
  · refine ⟨_, _, h, (exec_canon_of_underflow u (by omega)).trans (exec_unf u), fun _ _ => rfl,
      nib_canonicalZero_sign, ?_⟩
    rw [if_pos hunder]
    exact nib_canonicalZero_sign
  · refine ⟨_, _, h, exec_canon_of_inRange u (by omega) (by omega), fun j hj => ?_,
      (nib_canonicalForm_sign _ _ _).trans hsign, ?_⟩
    · rw [hexp, hb]
      exact nib_canonicalForm_congr hA _ _ hj
    · rw [if_neg (by omega)]
      exact (nib_canonicalForm_sign _ _ _).trans hsign'

/-! ### The numeric value (rule R150) -/

/-- Moving the terms of a sum up by `d` places keeps it, if the first `d` places are then zero and the last `d` were. -/
theorem sum_range_eq_of_moved {f g : Nat → ℚ} {d k : Nat} (hzero : ∀ i < d, g i = 0) (hmoved : ∀ i < k, g (d + i) = f i)
    (hout : ∀ i < d, f (k + i) = 0) : ∑ i ∈ Finset.range (d + k), g i = ∑ i ∈ Finset.range (d + k), f i := by
  rw [Finset.sum_range_add, Finset.sum_eq_zero fun i hi => hzero i (Finset.mem_range.mp hi), zero_add, Nat.add_comm d k,
    Finset.sum_range_add, Finset.sum_eq_zero fun i hi => hout i (Finset.mem_range.mp hi), add_zero]
  exact Finset.sum_congr rfl fun i hi => hmoved i (Finset.mem_range.mp hi)

/-- Moving the significant digits up to the first mantissa position divides the mantissa's value by the power of ten of the move. -/
theorem digitsValue_canonicalForm (m : ExpMag) (a b : Reg) (p : Nat) :
    digitsValue (canonicalForm m a b) 12 * (10 : ℚ) ^ ((leadIndex a : Int) - p) = digitsValue a p := by
  obtain ⟨hlead, hlead', -, hzero⟩ := leadIndex_spec a
  have hdigit (j : Nat) := nib_canonicalForm_mantissa m a b (j := j)
  simp only [closedDigit_eq] at hdigit
  rw [digitsValue, digitsValue, Finset.sum_mul, show 10 = (12 - leadIndex a) + (leadIndex a - 2) by omega]
  refine sum_range_eq_of_moved (fun i hi => ?_) (fun i hi => ?_) (fun i hi => ?_)
  · have hnib := hdigit (9 - i) (by omega)
    rw [if_neg (by omega), show 12 - (9 - i) = 3 + i by omega] at hnib
    simp [hnib]
  · have hnib := hdigit (leadIndex a - 3 - i) (by omega)
    rw [if_pos (by omega), show 12 - (leadIndex a - 3 - i) = 3 + (12 - leadIndex a + i) by omega,
      show leadIndex a - (leadIndex a - 3 - i) = 3 + i by omega] at hnib
    rw [hnib, mul_assoc, ← zpow_add₀ (by norm_num)]
    congr 2
    omega
  · rw [hzero _ (by omega) (by omega)]
    simp

theorem signFactor_canonicalForm (m : ExpMag) (a b : Reg) : signFactor (canonicalForm m a b) = signFactor a := by
  rw [signFactor, nib_canonicalForm_sign, signNibble_mantissaNegative, signFactor]
  by_cases h : nib a 13 = 9 <;> simp [h]

/-- Settles O25: what the move of the digits takes from the mantissa, the adjusted exponent has more than the entered one. -/
theorem canonPreservesTheValue : Obligations.CanonPreservesTheValue := by
  intro s hlow hhigh
  refine ⟨_, exec_canon_of_inRange s hlow hhigh, ?_⟩
  rw [succeed_readReg, writeReg_readReg_self]
  generalize s.cfg.expMag = m, s.readReg .a = a, s.readReg .b = b at *
  have hexp : decodedExponent (canonicalForm m a b) = ((leadIndex a : Int) - pointIndex b) + closedExponent m a := by
    rw [canonicalForm, decodedExponent_encodeExponent _ hlow hhigh, closedAdj_eq]
    omega
  calc canonicalValue (canonicalForm m a b)
      = signFactor a * (digitsValue (canonicalForm m a b) 12 * 10 ^ ((leadIndex a : Int) - pointIndex b)) *
          10 ^ closedExponent m a := by
        rw [canonicalValue, hexp, zpow_add₀ (by norm_num), signFactor_canonicalForm]
        ring
    _ = entryValue m a b := by rw [digitsValue_canonicalForm, entryValue]

/-! ### What CANON depends on -/

/-- Settles O26: the verdict is the same, and what it leaves in C, and after a range error in A and B, is the verdict's own. -/
theorem canonReadsOnlyAAndB : Obligations.CanonReadsOnlyAAndB := by
  intro s u hexp ha hb
  refine ⟨_, _, exec_canon s, exec_canon u, ?_⟩
  simp only [succeed_readReg, canonicalize_eq_apply, hexp, ha, hb]
  cases canonVerdict s.cfg.expMag (s.readReg .a) (s.readReg .b) with
  | inRange c => exact ⟨ha, hb, rfl⟩
  | overflow neg | underflow => exact ⟨rfl, rfl, rfl⟩

/-- Settles O27: the second CANON writes to C what the first one wrote there. -/
theorem canonIsIdempotent : Obligations.CanonIsIdempotent := by
  intro s
  obtain ⟨u, c, hfirst, hverdict⟩ := canonicalize_eq_writeReg_inRange s
  have hsecond : ((u.writeReg .c c).succeed 0).canonicalize = ((u.writeReg .c c).succeed 0).writeReg .c c :=
    canonicalize_of_inRange _ hverdict
  refine ⟨_, exec_canon s, ?_⟩
  rw [hfirst, exec_canon, hsecond]
  rfl

theorem canonVerdict_of_zero_hundreds {a : Reg} (h : nib a 2 = 0) (b : Reg) (m m' : ExpMag) :
    canonVerdict m a b = canonVerdict m' a b := by
  have hadj : adjustedExponent m a b = adjustedExponent m' a b := by
    rw [adjustedExponent_eq_closedAdj, adjustedExponent_eq_closedAdj, closedAdj, closedAdj,
      closedExponent_of_zero_hundreds h m m']
  rw [canonVerdict, canonVerdict, hadj]

theorem Verdict.apply_withExpMag (v : Verdict) (s : State) (m : ExpMag) :
    v.apply (s.withExpMag m) = (v.apply s).withExpMag m := by cases v <;> rfl

/-- Settles O30: both settings get the same verdict, and its effect does not look at the setting. -/
theorem magnitudeSettingsAgreeOnZeroHundreds : Obligations.MagnitudeSettingsAgreeOnZeroHundreds := by
  intro s h
  have hcanon (m : ExpMag) : exec .canon (s.withExpMag m) =
      .next ((((canonVerdict .two (s.readReg .a) (s.readReg .b)).apply s).succeed 0).withExpMag m) := by
    have hverdict : canonVerdict (s.withExpMag m).cfg.expMag ((s.withExpMag m).readReg .a) ((s.withExpMag m).readReg .b) =
        canonVerdict .two (s.readReg .a) (s.readReg .b) := canonVerdict_of_zero_hundreds h _ m .two
    rw [exec_canon, canonicalize_eq_apply, hverdict, Verdict.apply_withExpMag]
    rfl
  exact ⟨_, hcanon .two, hcanon .three⟩

/-- Settles O31: the entered exponent is at most -900, and the count adds at most 10. -/
theorem literalReadingUnderflowsNegativeExponents : Obligations.LiteralReadingUnderflowsNegativeExponents := by
  intro s hthree h
  apply exec_canon_of_underflow
  have hexp := closedExponent_three_le_of_negative h
  have hdbd := (closedDbd_bounds (s.readReg .a) (s.readReg .b)).2
  rw [hthree, closedAdj]
  omega

end Sys2Proof.Machine

/-!
PROOFS. Range errors and their sentinels (spec/42_range_sentinels.md): what the nested CANON computes on each sentinel, what OVF and UNF
leave behind, and what a CANON that goes out of range takes from them.
-/

namespace Sys2Proof.Machine

/-! ### The overflow sentinel (rule R174) -/

section
variable (m : ExpMag) (neg : Bool)

theorem firstDigit_overflowA : firstDigit (overflowA neg) = some 12 := by cases neg <;> decide

theorem pointIndex_overflowB : pointIndex overflowB = 12 := by decide

theorem scan_overflow_sentinel_dbd : (scan (overflowA neg) overflowB).dbd = 1 := by
  rw [scan_dbd, closedDbd, firstDigit_overflowA, pointIndex_overflowB]
  rfl

theorem enteredExponent_overflowA : enteredExponent m (overflowA neg) = 99 := by cases m <;> cases neg <;> decide

/-- The overflow sentinel lies on the upper end of the range. -/
theorem adjustedExponent_overflow_sentinel : adjustedExponent m (overflowA neg) overflowB = 99 := by
  rw [adjustedExponent, enteredExponent_overflowA, scan_overflow_sentinel_dbd]
  rfl

theorem closedAdj_overflow_sentinel : closedAdj m (overflowA neg) overflowB = 99 := by
  rw [← adjustedExponent_eq_closedAdj, adjustedExponent_overflow_sentinel]

theorem signFactor_overflowA : signFactor (overflowA neg) = if neg then -1 else 1 := by
  rw [signFactor, nib_overflowA_sign]
  cases neg <;> rfl

theorem nib_overflowA_mantissa : ∀ j < 10, nib (overflowA neg) (3 + j) = 9 := by cases neg <;> decide

theorem decodedExponent_overflowA : decodedExponent (overflowA neg) = 99 := by cases neg <;> decide

theorem digitsValue_overflowA : digitsValue (overflowA neg) 12 = 9.999999999 := by
  calc digitsValue (overflowA neg) 12
      = ∑ j ∈ Finset.range 10, (9 : ℚ) * 10 ^ ((3 + j : Int) - 12) :=
        Finset.sum_congr rfl fun j hj => by
          rw [nib_overflowA_mantissa neg j (Finset.mem_range.mp hj)]
          rfl
    _ = 9.999999999 := by norm_num [Finset.sum_range_succ]

theorem canonicalValue_overflowA : canonicalValue (overflowA neg) = (if neg then -1 else 1) * 9.999999999 * 10 ^ 99 := by
  rw [canonicalValue, signFactor_overflowA, digitsValue_overflowA, decodedExponent_overflowA]
  rfl

end

/-! ### The underflow sentinel (rules R152, R174) -/

theorem firstDigit_zeroA : firstDigit Config.zeroA = none := by decide

theorem pointIndex_zeroB : pointIndex Config.zeroB = 12 := by decide

theorem scan_zero_dbd : (scan Config.zeroA Config.zeroB).dbd = -9 := by
  rw [scan_dbd, closedDbd, firstDigit_zeroA, pointIndex_zeroB]
  rfl

theorem enteredExponent_zeroA (m : ExpMag) : enteredExponent m Config.zeroA = 0 := by cases m <;> decide

/-- The power-on zero lies well inside the range. -/
theorem adjustedExponent_zero (m : ExpMag) : adjustedExponent m Config.zeroA Config.zeroB = -10 := by
  rw [adjustedExponent, enteredExponent_zeroA, scan_zero_dbd]
  rfl

theorem closedAdj_zero (m : ExpMag) : closedAdj m Config.zeroA Config.zeroB = -10 := by
  rw [← adjustedExponent_eq_closedAdj, adjustedExponent_zero]

theorem nib_canonicalZero_mantissa : ∀ j < 10, nib canonicalZero (3 + j) = 0 := by decide

theorem digitsValue_canonicalZero (p : Nat) : digitsValue canonicalZero p = 0 :=
  Finset.sum_eq_zero fun j hj => by simp [nib_canonicalZero_mantissa j (Finset.mem_range.mp hj)]

theorem canonicalValue_canonicalZero : canonicalValue canonicalZero = 0 := by
  rw [canonicalValue, digitsValue_canonicalZero, mul_zero, zero_mul]

/-! ### The passes of CANON (rule R175) -/

/-- The pass after a range error is on a sentinel, and ends in range. -/
theorem canonPasses_add_two (n : Nat) (s : State) : canonPasses (n + 2) s = s.canonicalize := by
  obtain ⟨c, hv, h⟩ | ⟨neg, hv, h⟩ | ⟨hv, h⟩ := canonicalize_cases s <;> rw [h, canonPasses, hv]
  · exact canonPasses_loadOverflow s n neg
  · exact canonPasses_loadZero s n

/-- Settles O28: the exponent of either sentinel passes the range check, so no third pass is ever asked for. -/
theorem atMostOneNestedCanon : Obligations.AtMostOneNestedCanon :=
  ⟨fun m neg => ⟨adjustedExponent_overflow_sentinel m neg, _, canonVerdict_overflow_sentinel m neg⟩,
    fun m => ⟨adjustedExponent_zero m, _, canonVerdict_zero m⟩, canonPasses_add_two⟩

/-- Settles O58: the closed forms on both sentinels, with the verdicts and the values of the canonical forms they have. -/
theorem nestedCanonComputesTheSentinelResults : Obligations.NestedCanonComputesTheSentinelResults :=
  ⟨fun m neg => ⟨rfl, rfl, firstDigit_overflowA neg, pointIndex_overflowB, scan_overflow_sentinel_dbd neg,
      enteredExponent_overflowA m neg, adjustedExponent_overflow_sentinel m neg, canonVerdict_overflow_sentinel m neg,
      canonicalValue_overflowA neg⟩,
    fun m => ⟨rfl, rfl, firstDigit_zeroA, pointIndex_zeroB, scan_zero_dbd, adjustedExponent_zero m, canonVerdict_zero m,
      canonicalValue_canonicalZero⟩⟩

/-! ### OVF and UNF -/

/-- Settles O32: the writes of the sentinel, and of C by the CANON on it. -/
theorem ovfLoadsTheSentinel : Obligations.OvfLoadsTheSentinel := fun neg s =>
  ⟨_, exec_ovf s neg, rfl, rfl, rfl, by simp [Written, writeReg_isUnwritten],
    (overwrittenIn_loadOverflow_writeReg_c s neg _).endsWith_succeed rfl rfl 0⟩

/-- Settles O33: the writes of the power-on zero, and of C by the CANON on it. -/
theorem unfLoadsZero : Obligations.UnfLoadsZero := fun s =>
  ⟨_, exec_unf s, rfl, rfl, rfl, by simp [Written, writeReg_isUnwritten],
    (overwrittenIn_loadZero_writeReg_c s _).endsWith_succeed rfl rfl 0⟩

/-- Settles O34: what either command leaves in A, B and C names nothing of the state before. -/
theorem sentinelsAreOverwrites : Obligations.SentinelsAreOverwrites := by
  have hother {r : RegId} (ha : r ≠ .a) (hb : r ≠ .b) (hc : r ≠ .c) : r ∉ [RegId.a, .b, .c] := by simp [ha, hb, hc]
  rintro i s u (⟨neg, rfl⟩ | rfl)
  · exact ⟨_, _, exec_ovf s neg, exec_ovf u neg, rfl, rfl, rfl, fun _ ha hb hc =>
      ⟨(overwrittenIn_loadOverflow_writeReg_c s neg _).readReg_of_not_mem (hother ha hb hc),
        (overwrittenIn_loadOverflow_writeReg_c u neg _).readReg_of_not_mem (hother ha hb hc)⟩⟩
  · exact ⟨_, _, exec_unf s, exec_unf u, rfl, rfl, rfl, fun _ ha hb hc =>
      ⟨(overwrittenIn_loadZero_writeReg_c s _).readReg_of_not_mem (hother ha hb hc),
        (overwrittenIn_loadZero_writeReg_c u _).readReg_of_not_mem (hother ha hb hc)⟩⟩

/-! ### A CANON that goes out of range -/

theorem mantissaNegative_eq_decide (a : Reg) : mantissaNegative a = decide (nib a 13 = 9) := rfl

/-- Settles O19: the range check takes the branch of OVERFLOW or UNDERFLOW, whose body OVF or UNF runs. -/
theorem rangeErrorsRunTheSentinelCommands : Obligations.RangeErrorsRunTheSentinelCommands := by
  intro s
  rw [adjustedExponent_eq_closedAdj, ← mantissaNegative_eq_decide]
  exact ⟨exec_canon_of_overflow s, exec_canon_of_underflow s⟩

/-- Settles O17: what OVF of A's sign leaves. -/
theorem canonOverflowLeavesTheSentinel : Obligations.CanonOverflowLeavesTheSentinel := by
  intro s h
  rw [exec_canon_of_overflow s h, mantissaNegative_eq_decide]
  simpa only [decide_eq_true_eq] using ovfLoadsTheSentinel (decide (nib (s.readReg .a) 13 = 9)) s

/-- Settles O18: what UNF leaves. -/
theorem canonUnderflowLeavesZero : Obligations.CanonUnderflowLeavesZero := by
  intro s h
  rw [exec_canon_of_underflow s h]
  exact unfLoadsZero s

/-- Settles O35: CANON is idempotent, and what it leaves after a range error is a sentinel, whose exponent is in range. -/
theorem sentinelsAreFixedPoints : Obligations.SentinelsAreFixedPoints := by
  intro s hrange
  obtain ⟨t, hfirst, hsecond⟩ := canonIsIdempotent s
  refine ⟨t, t, hfirst, hsecond, rfl, rfl, rfl, ?_⟩
  obtain hunder | hover := hrange
  · rw [exec_canon_of_underflow s hunder, exec_unf] at hfirst
    cases hfirst
    exact ⟨le_trans (by decide) (closedAdj_zero _).ge, (closedAdj_zero _).le.trans (by decide)⟩
  · rw [exec_canon_of_overflow s hover, exec_ovf] at hfirst
    cases hfirst
    exact ⟨le_trans (by decide) (closedAdj_overflow_sentinel _ _).ge, (closedAdj_overflow_sentinel _ _).le⟩

end Sys2Proof.Machine

/-!
PROOFS. Errors (spec/60_exceptions.md): the codes of STATUS, the digit check, the step without a command, and what a command that ends with
an error leaves alone.
-/

namespace Sys2Proof.Machine

/-- A command that ends with an error changes the response alone, and any other reports OK (rules R200, R205). -/
theorem fail_or_ok_of_exec {i : Instr} {s t : State} (h : exec i s = .next t) :
    (∃ e, t = s.fail e) ∨ ∃ rdata, t.response = some { status := .ok, rdata := rdata } := by
  obtain hfail | ⟨-, rfl⟩ | ⟨neg, -, rfl⟩ | ⟨-, rfl⟩ | ⟨r, -, -, rfl⟩ | ⟨r, v, -, -, -, rfl⟩ |
    ⟨r, idx, val, -, -, -, -, rfl⟩ | ⟨-, rfl⟩ := exec_cases s h
  · exact .inl hfail
  all_goals exact .inr ⟨_, rfl⟩

/-- A step with a command pending takes that command off the stream, and then raises an error or reports OK. -/
theorem fail_or_ok_of_step {s t : State} {x : Transaction} {rest : List Transaction} (hp : s.pending = x :: rest)
    (h : step s = .next t) :
    (∃ e, t = State.fail { s with pending := rest } e) ∨ ∃ rdata, t.response = some { status := .ok, rdata := rdata } := by
  rw [step_of_pending s hp] at h
  cases hd : decode x with
  | error e =>
    rw [hd] at h
    cases h
    exact .inl ⟨_, rfl⟩
  | ok i =>
    rw [hd] at h
    exact fail_or_ok_of_exec h

/-! ### The obligations -/

/-- Settles O42: a response other than OK is the work of an error, which changes nothing but the stream and the response. -/
theorem errorsChangeNoRegister : Obligations.ErrorsChangeNoRegister := by
  intro s t status rdata hpending h hresponse hstatus
  obtain ⟨x, rest, hp⟩ := List.exists_cons_of_ne_nil hpending
  obtain ⟨e, rfl⟩ | ⟨v, hok⟩ := fail_or_ok_of_step hp h
  · cases hresponse
    exact ⟨rfl, rfl, rfl, rfl⟩
  · rw [hok] at hresponse
    cases hresponse
    exact absurd rfl hstatus

/-- Settles O8: the check searches the indices 0 to 13 in ascending order for a nibble that is no digit. -/
theorem digitCheckFindsTheLowestBadNibble : Obligations.DigitCheckFindsTheLowestBadNibble := by
  intro v i
  rw [firstBadNibble, List.find?_range_eq_some]
  simp [isDigit, and_left_comm]

/-- Settles O46: each code is a closed term. -/
theorem statusCodesAreAsListed : Obligations.StatusCodesAreAsListed := ⟨rfl, rfl, rfl, rfl⟩

/-- Settles O52: an empty stream has no command to take. -/
theorem blockIdlesWithoutACommand : Obligations.BlockIdlesWithoutACommand := step_of_idle

end Sys2Proof.Machine

/-!
PROOFS. Reset and hazards (spec/70_reset_and_hazards.md): what power-on leaves in A and B, and that a block with every register written
never stops.
-/

namespace Sys2Proof.Machine

/-! ### Power-on -/

/-- Settles O1: POWER_ON_CDEFM says nothing of A, B or the stream. -/
theorem powerOnSetsAAndB : Obligations.PowerOnSetsAAndB := by
  intro cfg p
  cases p with
  | unwritten | values c d e f m => exact ⟨rfl, rfl, rfl, rfl, rfl⟩

theorem inv_powerOn (cfg : Config) (p : PowerOn) : (State.powerOn cfg p).Inv := by
  obtain ⟨ha, hb, -⟩ := powerOnSetsAAndB cfg p
  rw [State.Inv, ha, hb]
  exact ⟨validReg_zeroA, validReg_zeroB⟩

/-- Settles O3: the power-on patterns of A and B are digits, and `State.reset` is one of the power-on states. -/
theorem powerOnMeetsTheInvariant : Obligations.PowerOnMeetsTheInvariant := ⟨inv_powerOn _ _, inv_powerOn⟩

/-! ### Every step ends -/

section
variable {i : Instr} {s t : State}

/-- The mark of the register an RD names is the one thing that can stop a command. -/
theorem exec_ends (hs : ∀ r, i = .rd r → s.isUnwritten r = false) : ∃ t, exec i s = .next t := by
  by_cases hrd : ∃ r, i = .rd r
  · obtain ⟨r, rfl⟩ := hrd
    exact ⟨_, exec_rd s (hs r rfl)⟩
  · obtain ⟨t, -, ht, -⟩ := rdataIsZeroUnlessRead i s (not_exists.mp hrd)
    exact ⟨t, ht⟩

/-- A command leaves the parameters (rule R7) and the commands behind it alone. -/
theorem exec_keeps_cfg_pending (h : exec i s = .next t) : t.cfg = s.cfg ∧ t.pending = s.pending := by
  obtain ⟨e, rfl⟩ | ⟨-, rfl⟩ | ⟨neg, -, rfl⟩ | ⟨-, rfl⟩ | ⟨r, -, -, rfl⟩ | ⟨r, v, -, -, -, rfl⟩ |
    ⟨r, idx, val, -, -, -, -, rfl⟩ | ⟨-, rfl⟩ := exec_cases s h
  case inr.inl => exact ⟨canonicalize_cfg s, canonicalize_pending s⟩
  all_goals exact ⟨rfl, rfl⟩

theorem exec_keeps_allWritten (hs : s.AllWritten) (h : exec i s = .next t) : t.AllWritten :=
  fun r => (marksEndOnlyAtWholeWrites i s t r h).1 (hs r)

end

/-- Settles O41: the step idles, ends a word that spells no command with an error, or runs a command that no mark stops. -/
theorem everyStepEnds : Obligations.EveryStepEnds := by
  intro s hs
  cases hp : s.pending with
  | nil => exact ⟨s, step_of_idle s hp, hs, rfl, hp⟩
  | cons x rest =>
    rw [step_of_pending s hp]
    cases decode x with
    | error e => exact ⟨_, rfl, hs, rfl, rfl⟩
    | ok i =>
      obtain ⟨t, ht⟩ := exec_ends (i := i) (s := { s with pending := rest }) fun r _ => hs r
      obtain ⟨hcfg, hpending⟩ := exec_keeps_cfg_pending ht
      exact ⟨t, ht, exec_keeps_allWritten (s := { s with pending := rest }) hs ht, hcfg, hpending⟩

end Sys2Proof.Machine
